-- ==== Sys2Proof/Word.lean ====
section
/-! DEFINITION. The word types of the core: bytes, nibbles, 32-bit words, and the fixed byte strings and word
arrays its registers hold (00_scope R12; 10_state R20). All values are unsigned. -/

namespace Sys2Proof

/-- `u8`: one byte of a payload, a response or a byte register (R12, R54). -/
abbrev Byte := BitVec 8

/-- `u4`: one nibble, the unit the substitution table works on (R100). -/
abbrev Nibble := BitVec 4

/-- `u32`: a half block, a key word or a hash word (R12). -/
abbrev Word := BitVec 32

/-- An 8-byte buffer, offset 0 first: a CipherBlock, CounterState, a keystream block, a nonce (R51, R52). -/
abbrev Block := Vector Byte 8

/-- A 32-byte buffer, offset 0 first: a raw key, a master key, a derived key (R7). -/
abbrev Key := Vector Byte 32

/-- The kept text of a label or a context: 64 bytes of storage (R31). -/
abbrev Text := Vector Byte 64

/-- A RoundKeySchedule: 32 words (R21). -/
abbrev Schedule := Vector Word 32

/-- A SubstitutionTable: the entry for row `i` and nibble `n` (R9, R100). -/
abbrev SBox := Fin 8 → Nibble → Nibble

end Sys2Proof
end

