-- ==== Sys2Proof/Config.lean ====
section
/-! DEFINITION. What is fixed for the machine: the constants of 00_scope R7 and R8 the step uses, and the one
parameter the spec leaves open, the substitution table `SBOX` (R9). -/

namespace Sys2Proof

/-- The rows of `SBOX`, with no value given: each row is some permutation of the nibbles 0..15, which is the only
law the spec states about them (R9, R100; log 5). Nothing can evaluate it, so a theorem that needs a ciphertext
value names the table it assumes as a hypothesis about `Config.sbox`. -/
opaque Config.sboxRows : Fin 8 → Equiv.Perm Nibble

/-- `SBOX[i][n]`, the table of this core (R9, R37: a parameter of the step function, not state). -/
def Config.sbox : SBox := fun i n => Config.sboxRows i n

/-- `BLOCK_BYTES` (R7): the exact window of a block command (R107). -/
@[simp] abbrev Config.blockBytes : Nat := 8

/-- `KEY_BYTES` (R7): the only legal length of a raw key (R106). -/
@[simp] abbrev Config.keyBytes : Nat := 32

/-- `MK_BYTES` (R7): the only legal length of a master key (R151). -/
@[simp] abbrev Config.masterKeyBytes : Nat := 32

/-- `NONCE_BYTES` (R7): the only legal length of a nonce (R133). -/
@[simp] abbrev Config.nonceBytes : Nat := 8

/-- `CHUNK_MAX` (R7): the longest payload of one STREAM command (R134). -/
@[simp] abbrev Config.chunkMax : Nat := 4096

/-- `LABEL_MAX` and `CONTEXT_MAX` (R7): how many bytes of a label or a context are kept (R154). -/
@[simp] abbrev Config.textMax : Nat := 64

/-- `SEP` (R7): the two bytes between label and context in the diversification string (R155). -/
@[simp] abbrev Config.separator : List Byte := [0x7c, 0x7c]

/-- `ROT` (R7): the left rotation in `F` (R103). -/
@[simp] abbrev Config.rotation : Nat := 11

/-- `KDF_ITER` (R7): the iteration count of the derivation (R156). Irreducible, so that no comparison of terms starts to
run the iterations; `Config.kdfIterations_eq` gives its value. -/
@[irreducible] def Config.kdfIterations : Nat := 10000

theorem Config.kdfIterations_eq : Config.kdfIterations = 10000 := by
  unfold Config.kdfIterations
  rfl

/-- `DK_BYTES` (R7): the length of a derived key (R160). -/
@[simp] abbrev Config.derivedKeyBytes : Nat := 32

end Sys2Proof
end

