-- ==== Sys2Proof/Machine/Bytes.lean ====
section
/-! DEFINITION. Byte order, bit fields and byte strings (00_scope R12 to R15; 20_memory R50 to R53; 43_hash R170). -/

namespace Sys2Proof

/-- `nib(v, i)`: nibble `i` of a word, nibble 0 least significant (R13). -/
def nib (v : Word) (i : Fin 8) : Nibble := (v >>> (4 * i.val)).setWidth 4

/-- `rotl32(v, n)` for `0 < n < 32` (R13). -/
def rotl32 (v : Word) (n : Nat) : Word := (v <<< n) ||| (v >>> (32 - n))

/-- `rotr32(v, n)` for `0 < n < 32` (R13). -/
def rotr32 (v : Word) (n : Nat) : Word := rotl32 v (32 - n)

/-- Byte `i` of a value, byte 0 least significant: bits `8i+7 : 8i` (R14). -/
def byteAt {w : Nat} (v : BitVec w) (i : Nat) : Byte := v.extractLsb' (8 * i) 8

/-- `LE32` of four bytes, the first least significant (R14). -/
def ofLE32 (b0 b1 b2 b3 : Byte) : Word := b3 ++ b2 ++ b1 ++ b0

/-- `BE32` of four bytes, the first most significant (R14, R170). -/
def ofBE32 (b0 b1 b2 b3 : Byte) : Word := b0 ++ b1 ++ b2 ++ b3

/-- `be32`: the four bytes of a word, most significant first (R14, R170). -/
def toBE32 (v : Word) : List Byte := [byteAt v 3, byteAt v 2, byteAt v 1, byteAt v 0]

/-- `be64`: the eight bytes of a 64-bit value, most significant first (R14, R174). -/
def toBE64 (v : BitVec 64) : List Byte :=
  [byteAt v 7, byteAt v 6, byteAt v 5, byteAt v 4, byteAt v 3, byteAt v 2, byteAt v 1, byteAt v 0]

/-- `LE64` of an 8-byte buffer, byte 0 least significant (R14, R52). -/
def ofLE64 (ctr : Block) : BitVec 64 :=
  ctr[7] ++ ctr[6] ++ ctr[5] ++ ctr[4] ++ ctr[3] ++ ctr[2] ++ ctr[1] ++ ctr[0]

/-- `le64`: the eight bytes of a 64-bit value, least significant first (R14). -/
def toLE64 (v : BitVec 64) : Block :=
  #v[byteAt v 0, byteAt v 1, byteAt v 2, byteAt v 3, byteAt v 4, byteAt v 5, byteAt v 6, byteAt v 7]

/-- The value of a 16-bit little-endian length field (R53, R71). -/
def ofLE16 (lo hi : Byte) : Nat := (hi ++ lo : BitVec 16).toNat

/-- The two bytes of a 16-bit little-endian length field (R53, R71). -/
def toLE16 (n : Nat) : List Byte :=
  [byteAt (BitVec.ofNat 16 n) 0, byteAt (BitVec.ofNat 16 n) 1]

/-- The first `n` bytes of a byte string as an `n`-byte buffer, zero where the string is shorter.
Irreducible, so that no comparison of states starts to compute its bytes. -/
@[irreducible] def bufferOf (n : Nat) (bytes : List Byte) : Vector Byte n :=
  Vector.ofFn fun i => bytes.getD i.val 0

/-- `MemRead(addr, n)`: the `n` bytes at offsets `addr .. addr+n-1` of a payload (R15, R54). -/
def memRead (pay : List Byte) (addr n : Nat) : List Byte := (pay.drop addr).take n

/-- Byte-wise exclusive or of two byte strings. -/
def xorBytes (a b : List Byte) : List Byte := List.zipWith (· ^^^ ·) a b

end Sys2Proof
end

