-- ==== Sys2Proof/Machine/Operands.lean ====
section
/-! DEFINITION. Operand assembly: what each payload format holds at which offset (30_encoding R75, R77). Nothing is
sign-extended, scaled or shifted; `llen` is zero-extended from 8 bits. -/

namespace Sys2Proof

/-- Format K: the 32 bytes of a raw key or a master key (R75). -/
def keyOperand (pay : List Byte) : Key := bufferOf 32 (memRead pay 0 32)

/-- Formats B and N: the 8 bytes of a block or a nonce (R75). -/
def blockOperand (pay : List Byte) : Block := bufferOf 8 (memRead pay 0 8)

/-- Format D: `llen`, the length of the label as supplied (R75, R152). -/
def labelLength (pay : List Byte) : Nat := (pay.headD 0).toNat

/-- Format D: the label as supplied, `llen` bytes at offset 1 (R75, R152). -/
def labelOperand (pay : List Byte) : List Byte := memRead pay 1 (labelLength pay)

/-- Format D: the context as supplied, `clen = LEN - 1 - llen` bytes at offset `1 + llen` (R75, R152). -/
def contextOperand (pay : List Byte) : List Byte :=
  memRead pay (1 + labelLength pay) (pay.length - 1 - labelLength pay)

/-- `Trunc64`: the first 64 bytes are kept, the rest dropped (R154). -/
def trunc64 (text : List Byte) : List Byte := text.take Config.textMax

end Sys2Proof
end

