-- ==== Sys2Proof/Syntax.lean ====
section
/-! DEFINITION. The ten commands of the core, one constructor per row of the opcode map (30_encoding R74). A command
is a pair of opcode and payload (R70); the opcode is the constructor, the payload its argument, whole and
unchecked, because a wrong length is found when the command runs, after the checks on the state (R79, R226). -/

namespace Sys2Proof

/-- The command set (R74). The argument is `PAY`, offset 0 first (R54); its format is that of R75. -/
inductive Instr where
  /-- 0x01, format K: construct the Block Cipher Engine (R106). -/
  | keyload (key : List Byte)
  /-- 0x02, format B: EncryptBlock (R108). -/
  | encblk (src : List Byte)
  /-- 0x03, format B: DecryptBlock (R109). -/
  | decblk (src : List Byte)
  /-- 0x10, format N: construct the stream processor (R133). -/
  | spinit (nonce : List Byte)
  /-- 0x11, format S: apply the keystream to one chunk (R134). -/
  | stream (data : List Byte)
  /-- 0x20, format K: set or rotate the master key (R151). -/
  | mkload (key : List Byte)
  /-- 0x21, format D: DeriveKey (R152). -/
  | derive (pay : List Byte)
  /-- 0x22, format Z: read the DerivedKeyRecord (R153). -/
  | dkread (pay : List Byte)
  /-- 0x30, format Z: report flags and fault records (R200). -/
  | status (pay : List Byte)
  /-- 0x31, format Z: erase all secret material (R201). -/
  | zeroize (pay : List Byte)
deriving DecidableEq, Repr

/-- `PAY` of a command. -/
def Instr.payload : Instr → List Byte
  | .keyload pay => pay
  | .encblk pay => pay
  | .decblk pay => pay
  | .spinit pay => pay
  | .stream pay => pay
  | .mkload pay => pay
  | .derive pay => pay
  | .dkread pay => pay
  | .status pay => pay
  | .zeroize pay => pay

/-- What the command port holds at its front. -/
inductive Fetched where
  /-- No whole frame yet: the core is held until the host supplies the rest (R73). -/
  | hold
  /-- A whole frame whose opcode is not in the opcode map (R78), and the bytes after it. -/
  | illegal (opc : Byte) (rest : List Byte)
  /-- A whole frame of a command, and the bytes after it. -/
  | command (i : Instr) (rest : List Byte)
deriving DecidableEq, Repr

end Sys2Proof
end

