-- ==== Sys2Proof/WellFormed.lean ====
section
/-! DEFINITION. Which terms of `Instr` are commands at all. A command is a pair of an opcode and a payload with
`len(PAY) < 2^16` (30_encoding R70, R71): the payload length must fit the 16-bit field LEN. Nothing else is a
matter of form: every payload within that length is a command, and its legality is decided when it runs (R79). -/

namespace Sys2Proof

/-- The payload fits the length field of a command frame (R70, R71). -/
def Instr.wellFormed (i : Instr) : Bool := decide (i.payload.length < 2 ^ 16)

/-- `Instr.wellFormed` as a proposition. -/
abbrev Instr.WellFormed (i : Instr) : Prop := i.wellFormed = true

end Sys2Proof
end

