-- ==== Sys2Proof/Decode.lean ====
section
/-! DEFINITION. Command and response frames as bytes in transmission order, the decoder and the encoder (30_encoding
R71 to R80). Decoding is total on any bytes and the same in every state (R80). -/

namespace Sys2Proof

/-- A frame: a tag byte (`OPC` or `ST`), a 16-bit little-endian length, then the payload (R71, R72). -/
def frame (tag : Byte) (payload : List Byte) : List Byte :=
  tag :: toLE16 payload.length ++ payload

/-- Split the first frame off a byte string: its tag, its payload and the bytes after it; `none` when there are
fewer than three header bytes or fewer payload bytes than the header announces (R71, R73). -/
def unframe : List Byte → Option (Byte × List Byte × List Byte)
  | tag :: lo :: hi :: body =>
    if body.length < ofLE16 lo hi then none
    else some (tag, body.take (ofLE16 lo hi), body.drop (ofLE16 lo hi))
  | _ => none

/-- The opcode map: the opcode is matched on all 8 bits, and every value outside the map is illegal (R74, R78). -/
def instrOf (opc : Byte) (pay : List Byte) : Option Instr :=
  match opc.toNat with
  | 0x01 => some (.keyload pay)
  | 0x02 => some (.encblk pay)
  | 0x03 => some (.decblk pay)
  | 0x10 => some (.spinit pay)
  | 0x11 => some (.stream pay)
  | 0x20 => some (.mkload pay)
  | 0x21 => some (.derive pay)
  | 0x22 => some (.dkread pay)
  | 0x30 => some (.status pay)
  | 0x31 => some (.zeroize pay)
  | _ => none

/-- Decode what stands at the front of a byte string (R71, R73, R78). -/
def decode (bytes : List Byte) : Fetched :=
  match unframe bytes with
  | none => .hold
  | some (opc, pay, rest) =>
    match instrOf opc pay with
    | some i => .command i rest
    | none => .illegal opc rest

/-- The opcode of a command (R74). -/
def opcodeOf : Instr → Byte
  | .keyload _ => 0x01
  | .encblk _ => 0x02
  | .decblk _ => 0x03
  | .spinit _ => 0x10
  | .stream _ => 0x11
  | .mkload _ => 0x20
  | .derive _ => 0x21
  | .dkread _ => 0x22
  | .status _ => 0x30
  | .zeroize _ => 0x31

/-- The command frame of a command (R71). -/
def encode (i : Instr) : List Byte := frame (opcodeOf i) i.payload

/-- The response frame `ST ‖ RLEN ‖ RSP` (R72). -/
def responseFrame (st : Byte) (rsp : List Byte) : List Byte := frame st rsp

/-- Byte `i` of an instruction numbered as the opcode table numbers it: frame byte 0 is bits 7:0, and every bit
from `nbits` on is zero. -/
def tableByte (nbits w : Nat) (i : Nat) : Byte := BitVec.ofNat 8 ((w % 2 ^ nbits) >>> (8 * i))

/-- The frame that begins with the bytes of `w`: three header bytes and as many payload bytes as they announce. -/
def tableFrame (nbits w : Nat) : List Byte :=
  (List.range (3 + ofLE16 (tableByte nbits w 1) (tableByte nbits w 2))).map (tableByte nbits w)

/-- The command the decoder reads from a word of the opcode table. -/
def decodeTableWord (nbits w : Nat) : Option Instr :=
  match decode (tableFrame nbits w) with
  | .command i _ => some i
  | .illegal _ _ => none
  | .hold => none

end Sys2Proof
end

