-- ==== Sys2Proof/Machine/State.lean ====
section
/-! DEFINITION. The state of the core: the registers of 10_state R20, grouped as the source's objects are, and the
three port fields through which the host reaches it (30_encoding R70 to R73; 70_reset R240). -/

namespace Sys2Proof.Machine

/-- The Block Cipher Engine's registers (R21, R22). -/
structure Engine where
  /-- `RK[0..31]`, the RoundKeySchedule (R21). -/
  rk : Schedule
  /-- `KEY_VALID`: an engine has been constructed (R22). -/
  keyValid : Bool
deriving DecidableEq, Repr

/-- The stream processor's registers (R24 to R28). -/
structure Processor where
  /-- `CTR[0..7]`, CounterState; `ctr[0]` is least significant (R24). -/
  ctr : Block
  /-- `KS[0..7]`, the last keystream block generated (R25). -/
  ks : Block
  /-- `AUX[0..7]`, the encrypted all-zero block; written by SPINIT, read by nothing (R26). -/
  aux : Block
  /-- `SP_VALID`: a processor has been constructed over the engine now in `RK` (R27). -/
  spValid : Bool
  /-- `SP_CLOSED`: a short chunk has ended the pass (R28). -/
  spClosed : Bool
deriving DecidableEq, Repr

/-- The Key Derivation Service's registers (R29 to R31). -/
structure Kds where
  make ::
  /-- `MK[0..31]`, the master key (R29). -/
  mk : Key
  /-- `MK_VALID`: a master key has been loaded (R29). -/
  mkValid : Bool
  /-- `DK[0..31]`, the most recently derived key (R30). -/
  dk : Key
  /-- `DLABEL[0..63]`, the label that produced `DK`, after truncation (R31). -/
  dlabel : Text
  /-- `DLLEN`, the label's kept length, 0..64 (R31). -/
  dllen : BitVec 7
  /-- `DCONTEXT[0..63]`, the context that produced `DK`, after truncation (R31). -/
  dcontext : Text
  /-- `DCLEN`, the context's kept length, 0..64 (R31). -/
  dclen : BitVec 7
  /-- `DK_VALID`: a derivation has completed (R30). -/
  dkValid : Bool
deriving DecidableEq, Repr

/-- The fault records (R34, R35). -/
structure FaultRecord where
  /-- `LASTFAULT`: the code of the most recent fault, 0 if none (R34). -/
  lastFault : Byte
  /-- `FAULTLOG`: bit `n` is set once fault code `n` has been raised (R35). -/
  faultLog : BitVec 16
deriving DecidableEq, Repr

/-- The whole machine. The first four fields are the architectural registers of R20; the last three are the host's
side of the core and hold no register of it (log 1, log 4). -/
structure State where
  engine : Engine
  processor : Processor
  kds : Kds
  faults : FaultRecord
  /-- The reset input is asserted; the next step is the reset event (R240). -/
  resetReq : Bool
  /-- Bytes the host has delivered that no command has consumed, oldest first (R71, R73). -/
  rx : List Byte
  /-- Bytes of the response frames the host has not taken, oldest first (R72). -/
  tx : List Byte
deriving DecidableEq, Repr

/-- No engine: the reset value of the engine group (R20, R40). -/
def Engine.empty : Engine where
  rk := Vector.replicate 32 0
  keyValid := false

/-- No processor: the reset value of the processor group (R20, R40). -/
def Processor.empty : Processor where
  ctr := Vector.replicate 8 0
  ks := Vector.replicate 8 0
  aux := Vector.replicate 8 0
  spValid := false
  spClosed := false

/-- No master key and no record: the reset value of the KDS group (R20, R40). -/
def Kds.empty : Kds where
  mk := Vector.replicate 32 0
  mkValid := false
  dk := Vector.replicate 32 0
  dlabel := Vector.replicate 64 0
  dllen := 0
  dcontext := Vector.replicate 64 0
  dclen := 0
  dkValid := false

/-- No fault recorded: the reset value of the fault records (R20, R40). -/
def FaultRecord.none : FaultRecord where
  lastFault := 0
  faultLog := 0

/-- The machine right after reset: every register of R20 at its reset value (R40); the reset input released and
both ports empty (log 1, log 4). -/
def State.reset : State where
  engine := Engine.empty
  processor := Processor.empty
  kds := Kds.empty
  faults := FaultRecord.none
  resetReq := false
  rx := []
  tx := []

/-- The ten named faults of a command (R210). Each ends its command in a NEXT state with a fault response (R218);
none of them stops the machine. -/
inductive FaultCode where
  /-- 0x01: KEYLOAD or MKLOAD with a key that is not 32 bytes (R211). -/
  | invalidKeyLength
  /-- 0x02: SPINIT with a nonce that is not 8 bytes (R212). -/
  | invalidNonceLength
  /-- 0x03: reserved for the host's hexadecimal adapter; no command raises it (R215). -/
  | malformedEncoding
  /-- 0x04: reserved for the host's file driver; no command raises it (R214). -/
  | ioFailure
  /-- 0x05: STREAM on a pass that a short chunk has closed (R213). -/
  | instanceReuseViolation
  /-- 0x06: an opcode outside the opcode map (R216). -/
  | illegalCommand
  /-- 0x07: ENCBLK or DECBLK with a payload that is not 8 bytes (R217). -/
  | blockLengthViolation
  /-- 0x08: the object the command needs was never constructed (R224). -/
  | notConstructed
  /-- 0x09: STREAM with more than 4096 bytes (R222). -/
  | chunkTooLong
  /-- 0x0A: a payload where none is allowed, or an inconsistent DERIVE payload (R223). -/
  | frameError
deriving DecidableEq, Repr

/-- The reasons the MACHINE could stop. There is none: the step is total, no command hangs and no state is stuck
(R70, R236), and a command's fault is a next state (R218). So this type has no constructor (log 11; safe: nothing
is cut short). -/
inductive Fault
deriving DecidableEq, Repr

/-- The reasons the model could refuse an instruction. -/
inductive Refusal where
  /-- Raised by an arm of `exec` whose instruction has no meaning yet; no arm does (safe: the model stops). -/
  | notModelled (mnemonic : String)
deriving DecidableEq, Repr

end Sys2Proof.Machine
end

