-- ==== Sys2Proof/Machine/Flags.lean ====
section
/-! DEFINITION. Every flag and status computation of the core: the fault codes, the fault records and the FLAGS byte
(10_state R33 to R35; 60_exceptions R210, R218). No arithmetic operation sets a flag (R33). -/

namespace Sys2Proof.Machine

/-- The status byte and fault code of a fault (R210). -/
def faultCode : FaultCode → Byte
  | .invalidKeyLength => 0x01
  | .invalidNonceLength => 0x02
  | .malformedEncoding => 0x03
  | .ioFailure => 0x04
  | .instanceReuseViolation => 0x05
  | .illegalCommand => 0x06
  | .blockLengthViolation => 0x07
  | .notConstructed => 0x08
  | .chunkTooLong => 0x09
  | .frameError => 0x0A

/-- `1 << n` for fault code `n`: the bit a fault sets in FAULTLOG (R35, R218). -/
def faultBit (f : FaultCode) : BitVec 16 := 1 <<< (faultCode f).toNat

/-- What a fault writes: `LASTFAULT <- n`, `FAULTLOG <- FAULTLOG or (1 << n)` (R218). -/
def recordFault (f : FaultCode) (r : FaultRecord) : FaultRecord where
  lastFault := faultCode f
  faultLog := r.faultLog ||| faultBit f

/-- The packed FLAGS byte, bit 0 first: KEY_VALID, SP_VALID, SP_CLOSED, MK_VALID, DK_VALID; bits 7:5 are 0 (R33). -/
def flagsByte (s : State) : Byte :=
  (BitVec.ofBool s.engine.keyValid).setWidth 8 |||
  (BitVec.ofBool s.processor.spValid).setWidth 8 <<< 1 |||
  (BitVec.ofBool s.processor.spClosed).setWidth 8 <<< 2 |||
  (BitVec.ofBool s.kds.mkValid).setWidth 8 <<< 3 |||
  (BitVec.ofBool s.kds.dkValid).setWidth 8 <<< 4

end Sys2Proof.Machine
end

