-- ==== Sys2Proof/Machine/Ops.lean ====
section
/-! DEFINITION. The named operations every command is made of: answering, taking a fault, fetching a frame, and the
events the host causes (30_encoding R70 to R73; 60_exceptions R218, R220; 70_reset R240). -/

namespace Sys2Proof.Machine

/-- What one command or one step answers. -/
abbrev Result := Host.Outcome State Fault Refusal

/-- Put one response frame `ST ‖ RLEN ‖ RSP` on the response port (R70, R72). -/
def respond (st : Byte) (rsp : List Byte) (s : State) : State :=
  { s with tx := s.tx ++ responseFrame st rsp }

/-- End a command in success: status 0x00 and its response payload (R72, R76). -/
def complete (rsp : List Byte) (s : State) : State := respond 0x00 rsp s

/-- TAKE A FAULT (R218): the code goes to LASTFAULT, its bit is set in FAULTLOG, the response carries the code and no
payload, and every other register keeps its value. There is no saved pc, no status to save, no vector and no handler
in the core (R218, R219); and so there is nothing to restore: after the response the core is ready for the next
command (R220), which is why no return operation stands beside this one. -/
def raise (f : FaultCode) (s : State) : State :=
  respond (faultCode f) [] { s with faults := recordFault f s.faults }

/-- The first fault of a list of checks whose condition holds (R226: exactly one fault, the first that applies). -/
def firstFault : List (Bool × FaultCode) → Option FaultCode
  | [] => none
  | (fails, f) :: rest => if fails then some f else firstFault rest

/-- All checks of a command precede all its writes (R218): if a check fails the fault is taken in the state the
command found; otherwise the command ends in `done`. -/
def guarded (checks : List (Bool × FaultCode)) (s done : State) : Result :=
  match firstFault checks with
  | some f => .next (raise f s)
  | none => .next done

/-- Fetch: decode what stands at the front of the command port (R71, R73). -/
def fetch (s : State) : Fetched := decode s.rx

/-- The frame just fetched leaves the command port; `rest` stays (R54: `PAY` is gone when the command ends). -/
def consume (rest : List Byte) (s : State) : State := { s with rx := rest }

/-- A frame whose opcode is not in the map: IllegalCommand, whatever LEN and PAY are (R78, R216). -/
def execIllegal (s : State) : Result := .next (raise .illegalCommand s)

/-- No whole frame: the core takes no step and changes no state (R73, I21; log 2). -/
def execHold (s : State) : Result := .next s

/-- The reset event: every register at its reset value, a command in progress abandoned with no response (R240); the
bytes waiting in both ports are dropped and the reset input is released (log 4). -/
def execReset (_ : State) : Result := .next State.reset

/-- The host delivers bytes of command frames (R71, R73). -/
def State.hostSend (bytes : List Byte) (s : State) : State := { s with rx := s.rx ++ bytes }

/-- The host takes the oldest `n` bytes of the response port (R54, R72). -/
def State.hostTake (n : Nat) (s : State) : State := { s with tx := s.tx.drop n }

/-- The host asserts the reset input (R240). -/
def State.hostReset (s : State) : State := { s with resetReq := true }

end Sys2Proof.Machine
end

