-- ==== Sys2Proof/Machine/Checks.lean ====
section
/-! DEFINITION. The checks of each command in the order of 60_exceptions R226: state before payload. Each entry is a
condition and the fault it raises. -/

namespace Sys2Proof.Machine

/-- KEYLOAD (R106): no state precondition; the key must be exactly 32 bytes. -/
def checksKeyload (pay : List Byte) : List (Bool × FaultCode) :=
  [(pay.length != Config.keyBytes, .invalidKeyLength)]

/-- ENCBLK and DECBLK (R107): an engine, then an exact 8-byte window. -/
def checksBlock (pay : List Byte) (s : State) : List (Bool × FaultCode) :=
  [(!s.engine.keyValid, .notConstructed),
   (pay.length != Config.blockBytes, .blockLengthViolation)]

/-- SPINIT (R133): an engine, then a nonce of exactly 8 bytes. -/
def checksSpinit (pay : List Byte) (s : State) : List (Bool × FaultCode) :=
  [(!s.engine.keyValid, .notConstructed),
   (pay.length != Config.nonceBytes, .invalidNonceLength)]

/-- STREAM (R134): a processor, an open pass, then at most 4096 bytes. -/
def checksStream (pay : List Byte) (s : State) : List (Bool × FaultCode) :=
  [(!s.processor.spValid, .notConstructed),
   (s.processor.spClosed, .instanceReuseViolation),
   (decide (Config.chunkMax < pay.length), .chunkTooLong)]

/-- MKLOAD (R151): no state precondition; the master key must be exactly 32 bytes. -/
def checksMkload (pay : List Byte) : List (Bool × FaultCode) :=
  [(pay.length != Config.masterKeyBytes, .invalidKeyLength)]

/-- DERIVE (R152): a master key, then a payload that holds `llen` and the label it announces. -/
def checksDerive (pay : List Byte) (s : State) : List (Bool × FaultCode) :=
  [(!s.kds.mkValid, .notConstructed),
   (pay.length == 0, .frameError),
   (decide (pay.length - 1 < labelLength pay), .frameError)]

/-- DKREAD (R153): a record, then an empty payload. -/
def checksDkread (pay : List Byte) (s : State) : List (Bool × FaultCode) :=
  [(!s.kds.dkValid, .notConstructed),
   (pay.length != 0, .frameError)]

/-- STATUS and ZEROIZE (R200, R201): an empty payload. -/
def checksEmpty (pay : List Byte) : List (Bool × FaultCode) :=
  [(pay.length != 0, .frameError)]

end Sys2Proof.Machine
end

