-- ==== Sys2Proof/Machine/Hash.lean ====
section
/-! DEFINITION. The hash primitives under the key derivation: SHA-256, HMAC-SHA-256 and PBKDF2 (43_hash_primitives
R170 to R179; log 7). Words are big-endian inside this file (R170). -/

namespace Sys2Proof.Machine

/-- Eight words: a chaining value `H[0..8)`, or the working variables `a .. h` (R171, R175). -/
structure HashWords where
  a : Word
  b : Word
  c : Word
  d : Word
  e : Word
  f : Word
  g : Word
  h : Word
deriving DecidableEq, Repr

/-- The initial chaining value `H0` (R171). -/
def hashInit : HashWords where
  a := 0x6a09e667
  b := 0xbb67ae85
  c := 0x3c6ef372
  d := 0xa54ff53a
  e := 0x510e527f
  f := 0x9b05688c
  g := 0x1f83d9ab
  h := 0x5be0cd19

/-- `Ch` (R173). -/
def shaCh (x y z : Word) : Word := (x &&& y) ^^^ (~~~x &&& z)

/-- `Maj` (R173). -/
def shaMaj (x y z : Word) : Word := (x &&& y) ^^^ (x &&& z) ^^^ (y &&& z)

/-- `BSIG0` (R173). -/
def bigSigma0 (x : Word) : Word := rotr32 x 2 ^^^ rotr32 x 13 ^^^ rotr32 x 22

/-- `BSIG1` (R173). -/
def bigSigma1 (x : Word) : Word := rotr32 x 6 ^^^ rotr32 x 11 ^^^ rotr32 x 25

/-- `SSIG0` (R173). -/
def smallSigma0 (x : Word) : Word := rotr32 x 7 ^^^ rotr32 x 18 ^^^ (x >>> 3)

/-- `SSIG1` (R173). -/
def smallSigma1 (x : Word) : Word := rotr32 x 17 ^^^ rotr32 x 19 ^^^ (x >>> 10)

/-- `z`, the least number of zero bytes that fills the last block: `(55 - len(m)) mod 64` (R174). -/
def padZeros (n : Nat) : Nat := ((55 - (n : Int)) % 64).toNat

/-- `Pad(m) = m ‖ 80 ‖ 00 x z ‖ be64(8 len(m))` (R174). -/
def shaPad (m : List Byte) : List Byte :=
  m ++ [0x80] ++ List.replicate (padZeros m.length) 0 ++ toBE64 (BitVec.ofNat 64 (8 * m.length))

/-- `W[t]` of a block for `t` in 0..16: the big-endian word at offset `4t` (R175). -/
def blockWord (block : List Byte) (t : Nat) : Word :=
  ofBE32 (block.getD (4 * t) 0) (block.getD (4 * t + 1) 0) (block.getD (4 * t + 2) 0) (block.getD (4 * t + 3) 0)

/-- The next schedule word from the words before it, NEWEST FIRST, so `W[t-k]` is entry `k - 1` (R175). -/
def nextScheduleWord (newest : List Word) : Word :=
  smallSigma1 (newest.getD 1 0) + newest.getD 6 0 + smallSigma0 (newest.getD 14 0) + newest.getD 15 0

/-- `n` more schedule words, each from the words before it; newest first (R175). -/
def extendSchedule : Nat → List Word → List Word
  | 0, newest => newest
  | n + 1, newest => extendSchedule n (nextScheduleWord newest :: newest)

/-- The message schedule `W[0..64)` of a 64-byte block, `W[0]` first (R175). -/
def messageSchedule (block : List Byte) : List Word :=
  (extendSchedule 48 ((List.range 16).map (blockWord block)).reverse).reverse

/-- One round of the compression function on the working variables, with `K[t]` and `W[t]` (R175). -/
def shaRound (v : HashWords) (kw : Word × Word) : HashWords :=
  let t1 := v.h + bigSigma1 v.e + shaCh v.e v.f v.g + kw.1 + kw.2
  let t2 := bigSigma0 v.a + shaMaj v.a v.b v.c
  { a := t1 + t2, b := v.a, c := v.b, d := v.c, e := v.d + t1, f := v.e, g := v.f, h := v.g }

/-- Word-wise addition modulo 2^32 of two chaining values (R175, the last line). -/
def HashWords.add (x y : HashWords) : HashWords :=
  { a := x.a + y.a, b := x.b + y.b, c := x.c + y.c, d := x.d + y.d,
    e := x.e + y.e, f := x.f + y.f, g := x.g + y.g, h := x.h + y.h }

/-- The compression function `Compress(H, B)` (R175). -/
def compress (H : HashWords) (block : List Byte) : HashWords :=
  H.add ((List.zip shaConstants (messageSchedule block)).foldl shaRound H)

/-- The 32 bytes `be32(H[0]) ‖ .. ‖ be32(H[7])` of a chaining value (R176). -/
def HashWords.bytes (H : HashWords) : List Byte :=
  toBE32 H.a ++ toBE32 H.b ++ toBE32 H.c ++ toBE32 H.d ++ toBE32 H.e ++ toBE32 H.f ++ toBE32 H.g ++ toBE32 H.h

/-- `SHA256(m)`: compress the 64-byte blocks of the padded message in order (R176). -/
def sha256 (m : List Byte) : List Byte :=
  ((List.range ((shaPad m).length / 64)).foldl
    (fun H j => compress H (memRead (shaPad m) (64 * j) 64)) hashInit).bytes

/-- `k0`: the key, hashed first if it is longer than 64 bytes, padded with zeros to 64 bytes (R177). -/
def hmacBlock (key : List Byte) : List Byte :=
  let k := if 64 < key.length then sha256 key else key
  k ++ List.replicate (64 - k.length) 0

/-- `HMAC_SHA256(key, msg) = SHA256(opad ‖ SHA256(ipad ‖ msg))` (R177). -/
def hmacSha256 (key msg : List Byte) : List Byte :=
  let ipad := (hmacBlock key).map (· ^^^ 0x36)
  let opad := (hmacBlock key).map (· ^^^ 0x5c)
  sha256 (opad ++ sha256 (ipad ++ msg))

/-- `n` further iterations of PBKDF2 from `U` and `T`: `U <- HMAC(P, U)`, `T <- T xor U` (R178). -/
def pbkdf2Iterate (password : List Byte) : Nat → List Byte → List Byte → List Byte
  | 0, _, t => t
  | n + 1, u, t =>
    let u' := hmacSha256 password u
    pbkdf2Iterate password n u' (xorBytes t u')

/-- Block `T_i` of PBKDF2: `U_1 = HMAC(P, S ‖ be32(i))` and the exclusive or of `U_1 .. U_c` (R178). -/
def pbkdf2Block (password salt : List Byte) (c i : Nat) : List Byte :=
  let u := hmacSha256 password (salt ++ toBE32 (BitVec.ofNat 32 i))
  pbkdf2Iterate password (c - 1) u u

/-- `PBKDF2_HMAC_SHA256(P, S, c, dkLen)`: blocks `T_1 .. T_l`, `l = ceil(dkLen / 32)`, cut at `dkLen` (R178). -/
def pbkdf2 (password salt : List Byte) (c dkLen : Nat) : List Byte :=
  ((List.range ((dkLen + 31) / 32)).flatMap fun i => pbkdf2Block password salt c (i + 1)).take dkLen

end Sys2Proof.Machine
end

