-- ==== Sys2Proof/Machine/Derivation.lean ====
section
/-! DEFINITION. The Key Derivation Service: the derivation and the commands MKLOAD, DERIVE and DKREAD
(42_key_derivation). It uses neither `SBOX` nor the engine (R150). -/

namespace Sys2Proof.Machine

/-- `Diversify(l2, c2) = l2 ‖ 7c 7c ‖ c2` (R155). -/
def diversify (label context : List Byte) : List Byte := label ++ Config.separator ++ context

/-- `DeriveKey(mk, l2, c2)`: PBKDF2 with the master key as password and the diversification string as salt, 10000
iterations, 32 bytes (R156). The random salt of the original is not generated (R157). Irreducible, so that no
comparison of states starts to run the iterations; `deriveKey.eq_1` unfolds it. -/
@[irreducible] def deriveKey (mk : Key) (label context : List Byte) : List Byte :=
  pbkdf2 mk.toList (diversify label context) Config.kdfIterations Config.derivedKeyBytes

/-- What DERIVE writes: the derived key and the label and context that produced it, zero beyond their lengths; the
master key stays (R152, R31). -/
def storeRecord (dk label context : List Byte) (k : Kds) : Kds where
  mk := k.mk
  mkValid := k.mkValid
  dk := bufferOf 32 dk
  dlabel := bufferOf 64 label
  dllen := BitVec.ofNat 7 label.length
  dcontext := bufferOf 64 context
  dclen := BitVec.ofNat 7 context.length
  dkValid := true

/-- The record as DKREAD returns it: `[DLLEN] ‖ DLABEL[0..DLLEN) ‖ [DCLEN] ‖ DCONTEXT[0..DCLEN) ‖ DK[0..32)` (R153). -/
def recordBytes (k : Kds) : List Byte :=
  [k.dllen.setWidth 8] ++ k.dlabel.toList.take k.dllen.toNat ++
  [k.dclen.setWidth 8] ++ k.dcontext.toList.take k.dclen.toNat ++ k.dk.toList

/-- MKLOAD (R151): a simple value-replace; the record of an earlier derivation stays. -/
def execMkload (pay : List Byte) (s : State) : Result :=
  guarded (checksMkload pay) s
    (complete [] { s with kds := { s.kds with mk := keyOperand pay, mkValid := true } })

/-- DERIVE (R152). -/
def execDerive (pay : List Byte) (s : State) : Result :=
  let label := trunc64 (labelOperand pay)
  let context := trunc64 (contextOperand pay)
  let dk := deriveKey s.kds.mk label context
  guarded (checksDerive pay s) s
    (complete dk { s with kds := storeRecord dk label context s.kds })

/-- DKREAD (R153): no register is written. -/
def execDkread (pay : List Byte) (s : State) : Result :=
  guarded (checksDkread pay s) s (complete (recordBytes s.kds) s)

end Sys2Proof.Machine
end

