-- ==== Sys2Proof/Machine/Engine.lean ====
section
/-! DEFINITION. The Block Cipher Engine: the round function, the key schedule, the block transform, and the commands
KEYLOAD, ENCBLK and DECBLK (40_block_cipher_engine). Every function takes the substitution table as an argument
(R9); the commands use the machine's own, `Config.sbox`. -/

namespace Sys2Proof.Machine

/-- The eight nibble positions of a word, least significant first. -/
def nibblePositions : List (Fin 8) := [0, 1, 2, 3, 4, 5, 6, 7]

/-- The substitution function `T`: row `i` on nibble `i`, each result packed in its own position (R101). -/
def substitute (S : SBox) (v : Word) : Word :=
  nibblePositions.foldl (fun acc i => acc ||| ((S i (nib v i)).setWidth 32 <<< (4 * i.val))) 0

/-- The round function `F(block, key)`: add modulo 2^32, substitute, rotate left by 11 (R103). -/
def roundF (S : SBox) (block key : Word) : Word := rotl32 (substitute S (block + key)) Config.rotation

/-- The two Feistel halves `L` and `R` (R23). -/
structure Halves where
  left : Word
  right : Word
deriving DecidableEq, Repr

/-- One Feistel round: `left, right <- right, left xor F(right, k)` (R104). -/
def feistelRound (S : SBox) (h : Halves) (k : Word) : Halves where
  left := h.right
  right := h.left ^^^ roundF S h.right k

/-- Word `j` of a raw key, little-endian (R50). -/
def keyWord (key : Key) (j : Fin 8) : Word :=
  ofLE32 key[4 * j.val] key[4 * j.val + 1] key[4 * j.val + 2] key[4 * j.val + 3]

/-- The key schedule expander: `rk[i] = w[i mod 8]` below 24, `rk[i] = w[31 - i]` from 24 on (R105).
Irreducible, so that no comparison of states starts to compute its words. -/
@[irreducible] def expandKey (key : Key) : Schedule := Vector.ofFn fun i =>
  if h : i.val < 24 then keyWord key ⟨i.val % 8, Nat.mod_lt _ (by decide)⟩
  else keyWord key ⟨31 - i.val, by omega⟩

/-- Decode a block: `left` at offsets 0..3, `right` at 4..7, both little-endian (R51). -/
def decodeBlock (src : Block) : Halves where
  left := ofLE32 src[0] src[1] src[2] src[3]
  right := ofLE32 src[4] src[5] src[6] src[7]

/-- Write a block out as `(right, left)`: `le32(right) ‖ le32(left)` (R51, R108). -/
def writeOut (h : Halves) : Block :=
  #v[byteAt h.right 0, byteAt h.right 1, byteAt h.right 2, byteAt h.right 3,
     byteAt h.left 0, byteAt h.left 1, byteAt h.left 2, byteAt h.left 3]

/-- EncryptBlock: the 32 rounds with `rk[0] .. rk[31]` (R108). -/
def encryptBlock (S : SBox) (rk : Schedule) (src : Block) : Block :=
  writeOut (rk.toList.foldl (feistelRound S) (decodeBlock src))

/-- DecryptBlock: the same rounds with `rk[31] .. rk[0]` (R109). -/
def decryptBlock (S : SBox) (rk : Schedule) (src : Block) : Block :=
  writeOut (rk.toList.reverse.foldl (feistelRound S) (decodeBlock src))

/-- What KEYLOAD writes: a new engine, and the processor built on the old one no longer exists (R106, R27). -/
def constructEngine (key : Key) (s : State) : State :=
  { s with engine := { rk := expandKey key, keyValid := true }, processor := Processor.empty }

/-- KEYLOAD (R106). -/
def execKeyload (pay : List Byte) (s : State) : Result :=
  guarded (checksKeyload pay) s (complete [] (constructEngine (keyOperand pay) s))

/-- ENCBLK (R107, R108): a pure function of `RK` and the payload; no register is written. -/
def execEncblk (pay : List Byte) (s : State) : Result :=
  guarded (checksBlock pay s) s
    (complete (encryptBlock Config.sbox s.engine.rk (blockOperand pay)).toList s)

/-- DECBLK (R107, R109): a pure function of `RK` and the payload; no register is written. -/
def execDecblk (pay : List Byte) (s : State) : Result :=
  guarded (checksBlock pay s) s
    (complete (decryptBlock Config.sbox s.engine.rk (blockOperand pay)).toList s)

end Sys2Proof.Machine
end

