-- ==== Sys2Proof/Machine/Housekeeping.lean ====
section
/-! DEFINITION. The housekeeping commands STATUS and ZEROIZE (44_housekeeping). -/

namespace Sys2Proof.Machine

/-- The four bytes of a STATUS response: FLAGS, LASTFAULT, FAULTLOG low byte, FAULTLOG high byte (R200, R76). -/
def statusBytes (s : State) : List Byte :=
  [flagsByte s, s.faults.lastFault, byteAt s.faults.faultLog 0, byteAt s.faults.faultLog 1]

/-- What ZEROIZE writes: every register but the fault records takes its reset value (R201). -/
def eraseSecrets (s : State) : State :=
  { s with engine := Engine.empty, processor := Processor.empty, kds := Kds.empty }

/-- STATUS (R200): no register is written. -/
def execStatus (pay : List Byte) (s : State) : Result :=
  guarded (checksEmpty pay) s (complete (statusBytes s) s)

/-- ZEROIZE (R201). -/
def execZeroize (pay : List Byte) (s : State) : Result :=
  guarded (checksEmpty pay) s (complete [] (eraseSecrets s))

end Sys2Proof.Machine
end

