-- ==== Sys2Proof/Machine/Stream.lean ====
section
/-! DEFINITION. The Keystream / Stream Processor: the counter, the keystream, and the commands SPINIT and STREAM
(41_stream_processor). -/

namespace Sys2Proof.Machine

/-- `Inc`: CounterState plus one as a little-endian 64-bit integer, wrapping modulo 2^64 (R131). -/
def inc (c : Block) : Block := toLE64 (ofLE64 c + 1)

/-- `NextKeystreamBlock`: increment the counter FIRST, then encrypt the incremented value (R132). -/
def nextKeystreamBlock (S : SBox) (rk : Schedule) (p : Processor) : Processor :=
  { p with ctr := inc p.ctr, ks := encryptBlock S rk (inc p.ctr) }

/-- The byte loop of STREAM from running output index `i`: a new keystream block whenever `i mod 8 = 0`, and each
output byte is the input byte xor `KS[i mod 8]` (R134). -/
def streamBytes (S : SBox) (rk : Schedule) : Nat → List Byte → Processor → Processor × List Byte
  | _, [], p => (p, [])
  | i, x :: xs, p =>
    let q := if i % 8 = 0 then nextKeystreamBlock S rk p else p
    let tail := streamBytes S rk (i + 1) xs q
    (tail.1, (x ^^^ q.ks[i % 8]'(Nat.mod_lt i (by decide))) :: tail.2)

/-- A chunk whose length is not a multiple of 8 is the final chunk of the pass (R134, R28). -/
def closeIfShort (n : Nat) (p : Processor) : Processor :=
  { p with spClosed := if n % 8 = 0 then p.spClosed else true }

/-- What SPINIT constructs over an engine: the auxiliary value, the nonce as counter, no keystream yet, an open pass
(R133). -/
def constructProcessor (S : SBox) (rk : Schedule) (nonce : Block) : Processor where
  ctr := nonce
  ks := Vector.replicate 8 0
  aux := encryptBlock S rk (Vector.replicate 8 0)
  spValid := true
  spClosed := false

/-- SPINIT (R133). -/
def execSpinit (pay : List Byte) (s : State) : Result :=
  guarded (checksSpinit pay s) s
    (complete [] { s with processor := constructProcessor Config.sbox s.engine.rk (blockOperand pay) })

/-- STREAM (R134). -/
def execStream (pay : List Byte) (s : State) : Result :=
  let out := streamBytes Config.sbox s.engine.rk 0 pay s.processor
  guarded (checksStream pay s) s
    (complete out.2 { s with processor := closeIfShort pay.length out.1 })

end Sys2Proof.Machine
end

