-- ==== Sys2Proof/Machine/Dispatch.lean ====
section
/-! DEFINITION. The meaning of every command, one arm per constructor of Instr (30_encoding R74). -/

namespace Sys2Proof.Machine

def exec (i : Instr) (s : State) : Host.Outcome State Fault Refusal :=
  match i with
  | .keyload pay => Sys2Proof.Machine.execKeyload pay s
  | .encblk pay => Sys2Proof.Machine.execEncblk pay s
  | .decblk pay => Sys2Proof.Machine.execDecblk pay s
  | .spinit pay => Sys2Proof.Machine.execSpinit pay s
  | .stream pay => Sys2Proof.Machine.execStream pay s
  | .mkload pay => Sys2Proof.Machine.execMkload pay s
  | .derive pay => Sys2Proof.Machine.execDerive pay s
  | .dkread pay => Sys2Proof.Machine.execDkread pay s
  | .status pay => Sys2Proof.Machine.execStatus pay s
  | .zeroize pay => Sys2Proof.Machine.execZeroize pay s

end Sys2Proof.Machine
end

