-- ==== Sys2Proof/Machine/Step.lean ====
section
/-! DEFINITION. One step of the core: the atomic execution of one whole command (00_scope R10; 30_encoding R70), the
reset event when the reset input is asserted (70_reset R240), or the hold on an incomplete frame (R73). -/

namespace Sys2Proof.Machine

/-- One step: reset first if it is asserted; otherwise the frame at the front of the command port leaves the port and
its command runs. The step is total (R70, R236). -/
def step (s : State) : Host.Outcome State Fault Refusal :=
  if s.resetReq then execReset s
  else
    match fetch s with
    | .hold => execHold s
    | .illegal _ rest => execIllegal (consume rest s)
    | .command i rest => exec i (consume rest s)

/-- `s` with the frame of a table word at the front of the command port, so that the next step runs exactly it; the
reset input is released, since a step that resets runs no command (log 3). -/
def State.withFetchWord (s : State) (nbits w : Nat) : State :=
  { s with rx := tableFrame nbits w ++ s.rx, resetReq := false }

end Sys2Proof.Machine
end

