-- ==== Sys2Proof/Machine/Pseudo.lean ====
section
/-! DEFINITION. The host's side of a message: sequences of commands, and the pseudo-instructions of 30_encoding R83 as
the command lists they expand to. None of them is an encoding of its own. -/

namespace Sys2Proof.Machine

/-- Run commands in order, each to completion (R60, R70). -/
def execAll : List Instr → State → Result
  | [], s => .next s
  | i :: rest, s =>
    match exec i s with
    | .next t => execAll rest t
    | .fault r => .fault r
    | .refused r => .refused r

/-- `data` cut in chunks of 4096 bytes, the last one shorter and omitted when it would be empty (R83, R66); `fuel` is
any bound on the number of chunks. -/
def chunksOf : Nat → List Byte → List (List Byte)
  | 0, _ => []
  | _ + 1, [] => []
  | fuel + 1, data => data.take Config.chunkMax :: chunksOf fuel (data.drop Config.chunkMax)

/-- The chunks of a message (R83). -/
def chunks (data : List Byte) : List (List Byte) := chunksOf data.length data

/-- `DERIVE <label>, <context>`: the assembler computes `llen` from the label (R82); a label has at most 255 bytes. -/
def deriveOf (label context : List Byte) : Instr :=
  .derive (BitVec.ofNat 8 label.length :: label ++ context)

/-- `SENC data` (R83). -/
def senc (data : List Byte) : List Instr := [.stream data]

/-- `SDEC data` (R83): the same STREAM. -/
def sdec (data : List Byte) : List Instr := [.stream data]

/-- `ENCRYPT key, nonce, data` (R83). -/
def encryptMessage (key nonce data : List Byte) : List Instr :=
  .keyload key :: .spinit nonce :: (chunks data).map .stream

/-- `DECRYPT key, nonce, data` (R83): the same expansion. -/
def decryptMessage (key nonce data : List Byte) : List Instr := encryptMessage key nonce data

/-- `DERIVEKEY mk, label, context` (R83). -/
def deriveKeyMessage (mk label context : List Byte) : List Instr :=
  [.mkload mk, deriveOf label context]

end Sys2Proof.Machine
end

