-- ==== Sys2Proof/Safety.lean ====
section
/-! DEFINITION. The terms claims about the core are stated in: the invariant of its registers, which registers a command
may be said to keep, and the closed forms of the spec's properties sections. -/

namespace Sys2Proof.Machine

/-- A schedule has the layout of `Expand`: three forward copies of its first eight words and one reversed (R21). -/
abbrev ScheduleShape (rk : Schedule) : Prop :=
  ∀ j : Fin 8, rk[8 + j.val] = rk[j.val] ∧ rk[16 + j.val] = rk[j.val] ∧ rk[24 + j.val] = rk[7 - j.val]

/-- While KEY_VALID is 1 the schedule has its layout (R21); while it is 0 the group is empty (R40, R201). -/
abbrev EngineInv (e : Engine) : Prop :=
  (e.keyValid = true → ScheduleShape e.rk) ∧ (e.keyValid = false → e = Engine.empty)

/-- SP_VALID implies KEY_VALID and SP_CLOSED implies SP_VALID (R144); while SP_VALID is 0 the group is empty. -/
abbrev ProcessorInv (e : Engine) (p : Processor) : Prop :=
  (p.spValid = true → e.keyValid = true) ∧ (p.spClosed = true → p.spValid = true) ∧
  (p.spValid = false → p = Processor.empty)

/-- A kept text is at most 64 bytes long and zero beyond its length (R31). -/
abbrev TextInv (text : Text) (len : BitVec 7) : Prop :=
  len.toNat ≤ 64 ∧ ∀ i : Fin 64, len.toNat ≤ i.val → text[i.val] = 0

/-- Both texts of the record keep R31, and each part of the group is zero while its valid bit is 0. -/
abbrev KdsInv (k : Kds) : Prop :=
  TextInv k.dlabel k.dllen ∧ TextInv k.dcontext k.dclen ∧
  (k.mkValid = false → k.mk = Kds.empty.mk) ∧
  (k.dkValid = false → k.dk = Kds.empty.dk ∧ k.dllen = 0 ∧ k.dclen = 0)

/-- FAULTLOG holds only bits 1, 2 and 5 to 10 (R35, R210: codes 3 and 4 are never raised); LASTFAULT is 0 exactly when
nothing has been recorded, and otherwise its own bit is recorded (R34, R35). -/
abbrev FaultInv (r : FaultRecord) : Prop :=
  r.faultLog &&& ~~~(0x07E6 : BitVec 16) = 0 ∧
  (r.lastFault = 0 → r.faultLog = 0) ∧
  (r.lastFault ≠ 0 → r.faultLog.getLsbD r.lastFault.toNat = true)

/-- The invariant of the registers: what every reachable state satisfies. -/
abbrev State.Inv (s : State) : Prop :=
  EngineInv s.engine ∧ ProcessorInv s.engine s.processor ∧ KdsInv s.kds ∧ FaultInv s.faults

/-- While a processor exists, AUX is the encryption of the all-zero block under the engine now in RK (R26, R133). -/
def State.AuxInv (s : State) : Prop :=
  s.processor.spValid = true →
    s.processor.aux = encryptBlock Config.sbox s.engine.rk (Vector.replicate 8 0)

/-- While a record exists, DK is what DeriveKey gives for the label and context kept beside it, under some master key;
no record links which one (R29, R31). -/
def State.RecordInv (s : State) : Prop :=
  s.kds.dkValid = true →
    ∃ mk : Key, s.kds.dk.toList =
      deriveKey mk (s.kds.dlabel.toList.take s.kds.dllen.toNat) (s.kds.dcontext.toList.take s.kds.dclen.toNat)

/-- The faults each command may raise (R210, column "Raised by"). -/
def raisable : Instr → List FaultCode
  | .keyload _ => [.invalidKeyLength]
  | .encblk _ => [.notConstructed, .blockLengthViolation]
  | .decblk _ => [.notConstructed, .blockLengthViolation]
  | .spinit _ => [.notConstructed, .invalidNonceLength]
  | .stream _ => [.notConstructed, .instanceReuseViolation, .chunkTooLong]
  | .mkload _ => [.invalidKeyLength]
  | .derive _ => [.notConstructed, .frameError]
  | .dkread _ => [.notConstructed, .frameError]
  | .status _ => [.frameError]
  | .zeroize _ => [.frameError]

/-- Two states that no command may tell apart: the same valid bits, fault records and ports, and the same contents of
every register whose valid bit is 1 (R41). `KS` and `AUX` may differ even then: no command reads what they hold (R25,
R26). -/
def State.AgreeOnValid (s t : State) : Prop :=
  s.engine.keyValid = t.engine.keyValid ∧
  (s.engine.keyValid = true → s.engine.rk = t.engine.rk) ∧
  s.processor.spValid = t.processor.spValid ∧ s.processor.spClosed = t.processor.spClosed ∧
  (s.processor.spValid = true → s.processor.ctr = t.processor.ctr) ∧
  s.kds.mkValid = t.kds.mkValid ∧ (s.kds.mkValid = true → s.kds.mk = t.kds.mk) ∧
  s.kds.dkValid = t.kds.dkValid ∧
  (s.kds.dkValid = true →
    s.kds.dk = t.kds.dk ∧ s.kds.dllen = t.kds.dllen ∧ s.kds.dlabel = t.kds.dlabel ∧
    s.kds.dclen = t.kds.dclen ∧ s.kds.dcontext = t.kds.dcontext) ∧
  s.faults = t.faults ∧ s.resetReq = t.resetReq ∧ s.rx = t.rx ∧ s.tx = t.tx

/-- Increment of a counter byte by byte: add 1 to the first byte; while the byte became 0x00 and a next byte exists, go
on with the next (R131, the second formulation). -/
def rippleInc : List Byte → List Byte
  | [] => []
  | b :: rest => if b + 1 = 0 then 0 :: rippleInc rest else (b + 1) :: rest

/-- Byte `j` of the keystream of a pass with counter value `N` at its start (R140). -/
def keystreamByte (S : SBox) (rk : Schedule) (N : BitVec 64) (j : Nat) : Byte :=
  (encryptBlock S rk (toLE64 (N + BitVec.ofNat 64 (j / 8 + 1))))[j % 8]'(Nat.mod_lt j (by decide))

/-- The closed form of a pass: `y[j] = x[j] xor keystream[j]` (R140). -/
def maskedBy (S : SBox) (rk : Schedule) (N : BitVec 64) (x : List Byte) : List Byte :=
  x.mapIdx fun j b => b ^^^ keystreamByte S rk N j

/-- The response bytes of a list of successful commands, one frame each (R72). -/
def successFrames (rsps : List (List Byte)) : List Byte := rsps.flatMap (responseFrame 0x00)

end Sys2Proof.Machine
end

