-- ==== Sys2Proof/Certificates/Slice0/Obligations.lean ====
section
/-! DEFINITION. The statements about the core, each read from the numbered rules of the spec. -/

open Sys2Proof
open Sys2Proof.Machine

/-! ### Reset, fetch and framing -/

/-- R40: every register of R20 holds its reset value in `State.reset`, and the reset event puts it there from any
state. (What the event does to the ports is log 4 and is not stated here.) -/
def Obligations.ResetPutsEveryRegisterToZero : Prop :=
  ∀ s : State, (s = State.reset ∨ ∃ r, r.resetReq = true ∧ step r = .next s) →
    s.engine.rk = Vector.replicate 32 0 ∧ s.engine.keyValid = false ∧
    s.processor.ctr = Vector.replicate 8 0 ∧ s.processor.ks = Vector.replicate 8 0 ∧
    s.processor.aux = Vector.replicate 8 0 ∧ s.processor.spValid = false ∧ s.processor.spClosed = false ∧
    s.kds.mk = Vector.replicate 32 0 ∧ s.kds.mkValid = false ∧ s.kds.dk = Vector.replicate 32 0 ∧
    s.kds.dlabel = Vector.replicate 64 0 ∧ s.kds.dllen = 0 ∧ s.kds.dcontext = Vector.replicate 64 0 ∧
    s.kds.dclen = 0 ∧ s.kds.dkValid = false ∧ s.faults.lastFault = 0 ∧ s.faults.faultLog = 0

/-- A step runs the decoded command: when the front of the command port decodes to `i`, the step is `exec i` on the
state whose port has lost exactly that frame. -/
def Obligations.StepRunsTheDecodedCommand : Prop :=
  ∀ (s : State) (i : Instr) (rest : List Byte), s.resetReq = false → decode s.rx = .command i rest →
    step s = exec i { s with rx := rest }

/-- R73: an incomplete frame changes nothing, and the host supplying the remaining bytes lifts the hold. That the held
core is a step to the same state is the model's inference (log 2). -/
def Obligations.IncompleteFrameHoldsUntilCompleted : Prop :=
  ∀ s : State, s.resetReq = false →
    (s.rx.length < 3 ∨
      ∃ opc lo hi body, s.rx = opc :: lo :: hi :: body ∧ body.length < lo.toNat + 256 * hi.toNat) →
    step s = .next s ∧
    ∀ (i : Instr) (more rest : List Byte), i.WellFormed → s.rx ++ more = encode i ++ rest →
      step (s.hostSend more) = exec i { s with rx := rest }

/-- R78, R216: a whole frame whose opcode is none of the ten raises IllegalCommand (code 6, bit 6) whatever its payload
is, and changes nothing but the fault records; the frame leaves the port and the response is `06 00 00`. -/
def Obligations.IllegalOpcodeRaisesIllegalCommand : Prop :=
  ∀ (s : State) (opc lo hi : Byte) (pay rest : List Byte), s.resetReq = false →
    opc ∉ ([0x01, 0x02, 0x03, 0x10, 0x11, 0x20, 0x21, 0x22, 0x30, 0x31] : List Byte) →
    pay.length = lo.toNat + 256 * hi.toNat → s.rx = opc :: lo :: hi :: pay ++ rest →
    step s = .next { s with
      rx := rest
      faults := { lastFault := 0x06, faultLog := s.faults.faultLog ||| 0x0040 }
      tx := s.tx ++ [0x06, 0x00, 0x00] }

/-- Frames written out byte by byte from R71, R74, R75 and the examples of R82 decode to the commands they stand for. -/
def Obligations.SampleFramesDecode : Prop :=
  decode ([0x01, 0x20, 0x00] ++ List.replicate 32 0x5a) = .command (.keyload (List.replicate 32 0x5a)) [] ∧
  decode [0x02, 0x08, 0x00, 1, 2, 3, 4, 5, 6, 7, 8] = .command (.encblk [1, 2, 3, 4, 5, 6, 7, 8]) [] ∧
  decode [0x03, 0x00, 0x00] = .command (.decblk []) [] ∧
  decode [0x11, 0x08, 0x00, 0x41, 0x42, 0x43, 0x44, 0x45, 0x46, 0x47, 0x48] =
    .command (.stream [0x41, 0x42, 0x43, 0x44, 0x45, 0x46, 0x47, 0x48]) [] ∧
  decode [0x21, 0x03, 0x00, 0x01, 0x4c, 0x43, 0x30] = .command (.derive [0x01, 0x4c, 0x43]) [0x30] ∧
  decode [0x30, 0x00, 0x00] = .command (.status []) [] ∧
  decode [0x00, 0x00, 0x00] = .illegal 0x00 [] ∧ decode [0x11, 0x02, 0x00, 0x41] = .hold

/-- R71: the frame of a command is its opcode, LEN low byte first with LEN = len(PAY), then PAY; 3 + LEN bytes. -/
def Obligations.EncodeWritesTheCommandFrame : Prop :=
  ∀ i : Instr, i.WellFormed →
    (∃ lo hi : Byte, encode i = opcodeOf i :: lo :: hi :: i.payload ∧
      lo.toNat + 256 * hi.toNat = i.payload.length) ∧
    (encode i).length = 3 + i.payload.length

/-- Decoding what was encoded gives the command back, with every payload byte, and leaves the bytes after it. -/
def Obligations.DecodeInvertsEncode : Prop :=
  ∀ (i : Instr) (rest : List Byte), i.WellFormed → decode (encode i ++ rest) = .command i rest

/-- Each frame has one reading: whatever bytes decode to a command are that command's encoding and the rest. -/
def Obligations.EncodeInvertsDecode : Prop :=
  ∀ (bytes : List Byte) (i : Instr) (rest : List Byte), decode bytes = .command i rest →
    i.WellFormed ∧ encode i ++ rest = bytes

/-- R60: the commands of a queue of frames run strictly in order, each to completion: running the machine is running
the commands. -/
def Obligations.QueuedFramesRunInOrder : Prop :=
  ∀ (is : List Instr) (s : State) (rest : List Byte), (∀ i ∈ is, i.WellFormed) → s.resetReq = false →
    s.rx = is.flatMap encode ++ rest →
    Host.Core.run Sys2Proof.core is.length s = execAll is { s with rx := rest }

/-! ### Faults -/

/-- R218: taking a fault writes its code to LASTFAULT, ors bit `n` into FAULTLOG, answers `n 00 00`, and keeps every
other register. -/
def Obligations.FaultDeliveryWritesOnlyTheRecords : Prop :=
  ∀ (f : FaultCode) (s : State),
    raise f s = { s with
      faults := { lastFault := faultCode f, faultLog := s.faults.faultLog ||| (1 <<< (faultCode f).toNat) }
      tx := s.tx ++ [faultCode f, 0x00, 0x00] }

/-- The ten fault codes of the table of R210. -/
def Obligations.FaultCodesAreTheTable : Prop :=
  faultCode .invalidKeyLength = 0x01 ∧ faultCode .invalidNonceLength = 0x02 ∧
  faultCode .malformedEncoding = 0x03 ∧ faultCode .ioFailure = 0x04 ∧
  faultCode .instanceReuseViolation = 0x05 ∧ faultCode .illegalCommand = 0x06 ∧
  faultCode .blockLengthViolation = 0x07 ∧ faultCode .notConstructed = 0x08 ∧
  faultCode .chunkTooLong = 0x09 ∧ faultCode .frameError = 0x0A

/-- Every command, in every state, ends in exactly one response: either a fault it may raise (R210, column "Raised
by"), taken as R218 says, or a success frame with the fault records as they were (R34, R35, R72). -/
def Obligations.EveryCommandEndsInOneResponse : Prop :=
  ∀ (i : Instr) (s : State), ∃ t, exec i s = .next t ∧
    ((∃ f ∈ raisable i, t = raise f s) ∨
     (t.faults = s.faults ∧ ∃ rsp, t.tx = s.tx ++ responseFrame 0x00 rsp)) ∧
    t.rx = s.rx ∧ t.resetReq = s.resetReq

/-- R236: no command hangs and no state is stuck. Every step answers a next state; if it is not the reset event it
either holds on an incomplete frame and changes nothing, or takes at least three bytes, a whole header, off the command
port. That the held core is a step to the same state is the model's inference (log 2). -/
def Obligations.EveryStepAnswersANextState : Prop :=
  ∀ s : State, ∃ t, step s = .next t ∧
    (s.resetReq = false → (decode s.rx = .hold ∧ t = s) ∨ t.rx.length + 3 ≤ s.rx.length)

/-- R35: FAULTLOG is sticky and only the reset event clears it; LASTFAULT never returns to 0 without it (R34). -/
def Obligations.FaultRecordsAreSticky : Prop :=
  ∀ s t : State, s.resetReq = false → step s = .next t →
    s.faults.faultLog &&& t.faults.faultLog = s.faults.faultLog ∧
    (s.faults.lastFault ≠ 0 → t.faults.lastFault ≠ 0)

/-! ### Block Cipher Engine -/

/-- R106: KEYLOAD of exactly 32 bytes constructs an engine and clears the processor group; any other length raises
InvalidKeyLength. Nothing else changes. -/
def Obligations.KeyloadConstructsTheEngine : Prop :=
  ∀ (pay : List Byte) (s : State),
    (pay.length ≠ 32 → exec (.keyload pay) s = .next (raise .invalidKeyLength s)) ∧
    (pay.length = 32 → exec (.keyload pay) s = .next { s with
      engine := { rk := expandKey (bufferOf 32 pay), keyValid := true }
      processor := { ctr := Vector.replicate 8 0, ks := Vector.replicate 8 0, aux := Vector.replicate 8 0,
                     spValid := false, spClosed := false }
      tx := s.tx ++ [0x00, 0x00, 0x00] })

/-- R105, R50: the schedule is the eight little-endian key words, three times forward and once reversed. -/
def Obligations.KeyScheduleLayout : Prop :=
  ∀ (key : Key) (j : Fin 8),
    ((expandKey key)[j.val]).toNat =
      (key[4 * j.val]).toNat + 2 ^ 8 * (key[4 * j.val + 1]).toNat + 2 ^ 16 * (key[4 * j.val + 2]).toNat +
        2 ^ 24 * (key[4 * j.val + 3]).toNat ∧
    (expandKey key)[8 + j.val] = (expandKey key)[j.val] ∧
    (expandKey key)[16 + j.val] = (expandKey key)[j.val] ∧
    (expandKey key)[24 + j.val] = (expandKey key)[7 - j.val]

/-- R101, R103: nibble `i` of `T(v)` is row `i` of the table at nibble `i` of `v`; `F` adds modulo 2^32, applies `T` and
rotates left by 11, so bit `i` of the result is bit `(i + 21) mod 32` of `T`. -/
def Obligations.RoundFunctionAddsSubstitutesRotates : Prop :=
  ∀ (S : SBox) (block key v : Word),
    (∀ i : Fin 8, nib (substitute S v) i = S i (nib v i)) ∧
    (block + key).toNat = (block.toNat + key.toNat) % 2 ^ 32 ∧
    ∀ i : Fin 32, (roundF S block key).getLsbD i.val =
      (substitute S (block + key)).getLsbD ((i.val + 21) % 32)

/-- R100, R101: each row of this core's table is a bijection on the nibbles, and for every table with that property `T`
is a bijection on u32. -/
def Obligations.SubstitutionIsABijection : Prop :=
  (∀ i, Function.Bijective (Config.sbox i)) ∧
  ∀ S : SBox, (∀ i, Function.Bijective (S i)) → Function.Bijective (substitute S)

/-- R104: a round swaps the halves and masks one, and it is invertible for every round key. -/
def Obligations.FeistelRoundIsInvertible : Prop :=
  ∀ (S : SBox) (k l r : Word),
    feistelRound S ⟨l, r⟩ k = ⟨r, l ^^^ roundF S r k⟩ ∧
    ∀ l' r', feistelRound S ⟨l, r⟩ k = ⟨l', r'⟩ → r = l' ∧ l = r' ^^^ roundF S l' k

/-- R107, R108, R51: ENCBLK faults without an engine, then on a window that is not 8 bytes; otherwise it answers the 8
bytes the 32 rounds give, written out as (right, left) little-endian, and writes no register. -/
def Obligations.EncblkEncryptsTheBlock : Prop :=
  ∀ (pay : List Byte) (s : State),
    (s.engine.keyValid = false → exec (.encblk pay) s = .next (raise .notConstructed s)) ∧
    (s.engine.keyValid = true → pay.length ≠ 8 → exec (.encblk pay) s = .next (raise .blockLengthViolation s)) ∧
    (s.engine.keyValid = true → ∀ b0 b1 b2 b3 b4 b5 b6 b7, pay = [b0, b1, b2, b3, b4, b5, b6, b7] →
      ∃ L R : Nat → Word,
        L 0 = ofLE32 b0 b1 b2 b3 ∧ R 0 = ofLE32 b4 b5 b6 b7 ∧
        (∀ i : Fin 32, L (i.val + 1) = R i.val ∧
          R (i.val + 1) = L i.val ^^^ roundF Config.sbox (R i.val) s.engine.rk[i.val]) ∧
        exec (.encblk pay) s = .next { s with
          tx := s.tx ++ [0x00, 0x08, 0x00,
            byteAt (R 32) 0, byteAt (R 32) 1, byteAt (R 32) 2, byteAt (R 32) 3,
            byteAt (L 32) 0, byteAt (L 32) 1, byteAt (L 32) 2, byteAt (L 32) 3] })

/-- R107, R109, R51: DECBLK is ENCBLK with the round keys in reverse order, `rk[31 - i]` in round `i`. -/
def Obligations.DecblkDecryptsTheBlock : Prop :=
  ∀ (pay : List Byte) (s : State),
    (s.engine.keyValid = false → exec (.decblk pay) s = .next (raise .notConstructed s)) ∧
    (s.engine.keyValid = true → pay.length ≠ 8 → exec (.decblk pay) s = .next (raise .blockLengthViolation s)) ∧
    (s.engine.keyValid = true → ∀ b0 b1 b2 b3 b4 b5 b6 b7, pay = [b0, b1, b2, b3, b4, b5, b6, b7] →
      ∃ L R : Nat → Word,
        L 0 = ofLE32 b0 b1 b2 b3 ∧ R 0 = ofLE32 b4 b5 b6 b7 ∧
        (∀ i : Fin 32, L (i.val + 1) = R i.val ∧
          R (i.val + 1) = L i.val ^^^ roundF Config.sbox (R i.val) s.engine.rk[31 - i.val]) ∧
        exec (.decblk pay) s = .next { s with
          tx := s.tx ++ [0x00, 0x08, 0x00,
            byteAt (R 32) 0, byteAt (R 32) 1, byteAt (R 32) 2, byteAt (R 32) 3,
            byteAt (L 32) 0, byteAt (L 32) 1, byteAt (L 32) 2, byteAt (L 32) 3] })

/-- R110: decryption inverts encryption and encryption inverts decryption, for every schedule, block and table, even
one that is no permutation. -/
def Obligations.DecryptInvertsEncrypt : Prop :=
  ∀ (S : SBox) (rk : Schedule) (b : Block),
    decryptBlock S rk (encryptBlock S rk b) = b ∧ encryptBlock S rk (decryptBlock S rk b) = b

/-- R111: the 32 swapping rounds with the swapped write-out compute the conventional network, whose last round does not
swap: `(Lh(31) xor F(Rh(31), rk[31]), Rh(31))`. -/
def Obligations.EncryptIsTheConventionalNetwork : Prop :=
  ∀ (S : SBox) (rk : Schedule) (b : Block),
    let h := (rk.toList.take 31).foldl (feistelRound S) (decodeBlock b)
    decodeBlock (encryptBlock S rk b) = ⟨h.left ^^^ roundF S h.right rk[31], h.right⟩

/-- A palindromic key (`w[j] = w[7 - j]`) makes the block transform its own inverse (from R105, R109, R110). -/
def Obligations.PalindromicKeyMakesDecryptEncrypt : Prop :=
  ∀ (S : SBox) (key : Key) (b : Block),
    (∀ j : Fin 8, (expandKey key)[j.val] = (expandKey key)[7 - j.val]) →
    decryptBlock S (expandKey key) b = encryptBlock S (expandKey key) b

/-! ### Stream processor -/

/-- R131: `Inc` adds one to the little-endian 64-bit integer modulo 2^64, equivalently by byte-wise ripple carry. -/
def Obligations.CounterIncrementRipples : Prop :=
  ∀ ctr : Block,
    (ofLE64 (inc ctr)).toNat = ((ofLE64 ctr).toNat + 1) % 2 ^ 64 ∧
    (inc ctr).toList = rippleInc ctr.toList

/-- R133: SPINIT faults without an engine, then on a nonce that is not 8 bytes; otherwise it constructs the processor:
AUX is the encrypted zero block, CTR the nonce, no keystream, an open pass. Nothing else changes. -/
def Obligations.SpinitConstructsTheProcessor : Prop :=
  ∀ (pay : List Byte) (s : State),
    (s.engine.keyValid = false → exec (.spinit pay) s = .next (raise .notConstructed s)) ∧
    (s.engine.keyValid = true → pay.length ≠ 8 → exec (.spinit pay) s = .next (raise .invalidNonceLength s)) ∧
    (s.engine.keyValid = true → pay.length = 8 → exec (.spinit pay) s = .next { s with
      processor := {
        ctr := bufferOf 8 pay
        ks := Vector.replicate 8 0
        aux := encryptBlock Config.sbox s.engine.rk (Vector.replicate 8 0)
        spValid := true
        spClosed := false }
      tx := s.tx ++ [0x00, 0x00, 0x00] })

/-- R134: STREAM faults without a processor, then on a closed pass, then on more than 4096 bytes; otherwise output byte
`j` is input byte `j` xor byte `j mod 8` of the encryption of the counter incremented `j/8 + 1` times, the counter has
advanced by `ceil(n/8)`, KS is the last block generated, and a length that is not a multiple of 8 closes the pass. -/
def Obligations.StreamMasksTheChunk : Prop :=
  ∀ (pay : List Byte) (s : State),
    (s.processor.spValid = false → exec (.stream pay) s = .next (raise .notConstructed s)) ∧
    (s.processor.spValid = true → s.processor.spClosed = true →
      exec (.stream pay) s = .next (raise .instanceReuseViolation s)) ∧
    (s.processor.spValid = true → s.processor.spClosed = false → 4096 < pay.length →
      exec (.stream pay) s = .next (raise .chunkTooLong s)) ∧
    (s.processor.spValid = true → s.processor.spClosed = false → pay.length ≤ 4096 →
      let counter : Nat → Block := fun k => inc^[k] s.processor.ctr
      let blocks := (pay.length + 7) / 8
      exec (.stream pay) s = .next { s with
        processor := { s.processor with
          ctr := counter blocks
          ks := if pay.length = 0 then s.processor.ks
                else encryptBlock Config.sbox s.engine.rk (counter blocks)
          spClosed := decide (pay.length % 8 ≠ 0) }
        tx := s.tx ++ responseFrame 0x00 (pay.mapIdx fun j x =>
          x ^^^ (encryptBlock Config.sbox s.engine.rk (counter (j / 8 + 1)))[j % 8]'(Nat.mod_lt j (by decide))) })

/-- R137: a zero-length chunk that passes its checks answers an empty response and changes no register; the checks
still apply. -/
def Obligations.ZeroLengthChunkGeneratesNothing : Prop :=
  ∀ s : State,
    (s.processor.spValid = true → s.processor.spClosed = false →
      exec (.stream []) s = .next { s with tx := s.tx ++ [0x00, 0x00, 0x00] }) ∧
    (s.processor.spValid = false → exec (.stream []) s = .next (raise .notConstructed s)) ∧
    (s.processor.spValid = true → s.processor.spClosed = true →
      exec (.stream []) s = .next (raise .instanceReuseViolation s))

/-- R136, R140: one pass. After SPINIT, any chunks whose lengths are multiples of 8 but for the last (each at most
4096) all succeed, and the concatenated responses are the closed form on the concatenated input: they do not depend on
where the chunk boundaries fall. The counter has advanced by `ceil(m/8)`, and only the processor group and the
response port have changed. -/
def Obligations.PassEqualsItsClosedForm : Prop :=
  ∀ (s : State) (nonce : List Byte) (cs : List (List Byte)) (last : List Byte),
    s.engine.keyValid = true → nonce.length = 8 →
    (∀ c ∈ cs, c.length % 8 = 0 ∧ c.length ≤ 4096) → last.length ≤ 4096 →
    ∃ (t : State) (outs : List (List Byte)),
      execAll (.spinit nonce :: (cs ++ [last]).map .stream) s = .next t ∧
      outs.map List.length = (cs ++ [last]).map List.length ∧
      outs.flatten =
        maskedBy Config.sbox s.engine.rk (ofLE64 (bufferOf 8 nonce)) (cs ++ [last]).flatten ∧
      ofLE64 t.processor.ctr =
        ofLE64 (bufferOf 8 nonce) + BitVec.ofNat 64 (((cs ++ [last]).flatten.length + 7) / 8) ∧
      t = { s with processor := t.processor, tx := s.tx ++ successFrames ([] :: outs) }

/-- R138: encrypting a message and then decrypting the result under the same key and starting nonce gives the message
back, for every message (the pseudo-instructions ENCRYPT and DECRYPT of R83 as command sequences). -/
def Obligations.DecryptionRecoversTheMessage : Prop :=
  ∀ (s : State) (key nonce p : List Byte), key.length = 32 → nonce.length = 8 →
    ∃ (t u : State) (enc dec : List (List Byte)),
      execAll (encryptMessage key nonce p) s = .next t ∧
      t.tx = s.tx ++ successFrames ([] :: [] :: enc) ∧
      execAll (decryptMessage key nonce enc.flatten) t = .next u ∧
      u.tx = t.tx ++ successFrames ([] :: [] :: dec) ∧
      dec.flatten = p

/-- R141: under one key two different starting nonces give different first keystream blocks. -/
def Obligations.FirstKeystreamBlocksDiffer : Prop :=
  ∀ (S : SBox) (rk : Schedule) (n1 n2 : Block), n1 ≠ n2 →
    encryptBlock S rk (inc n1) ≠ encryptBlock S rk (inc n2)

/-- R252: flipping bits of the input flips exactly the same bits of the output, and nothing is reported. -/
def Obligations.BitFlipsPassThroughUnnoticed : Prop :=
  ∀ (s : State) (x d : List Byte), s.processor.spValid = true → s.processor.spClosed = false →
    x.length ≤ 4096 → d.length = x.length →
    ∃ (t : State) (y : List Byte), y.length = x.length ∧
      exec (.stream x) s = .next { t with tx := s.tx ++ responseFrame 0x00 y } ∧
      exec (.stream (xorBytes x d)) s = .next { t with tx := s.tx ++ responseFrame 0x00 (xorBytes y d) } ∧
      t.faults = s.faults

/-- R28, R213: once a short chunk has closed a pass it stays closed, and the processor group stays as it is, until
SPINIT, KEYLOAD or ZEROIZE; meanwhile every STREAM raises InstanceReuseViolation. -/
def Obligations.ClosedPassStaysClosed : Prop :=
  ∀ (s t : State) (i : Instr), s.processor.spValid = true → s.processor.spClosed = true → exec i s = .next t →
    (t.processor = s.processor ∨ opcodeOf i ∈ ([0x01, 0x10, 0x31] : List Byte)) ∧
    (∀ data, i = .stream data → t = raise .instanceReuseViolation s)

/-- R248: a KEYLOAD in the middle of a pass ends the pass: it clears the processor, and the next STREAM faults with
NotConstructed; a failed KEYLOAD leaves the pass as it was. -/
def Obligations.KeyloadEndsThePass : Prop :=
  ∀ (s : State) (key data : List Byte),
    (key.length = 32 → ∃ t, exec (.keyload key) s = .next t ∧ t.processor = Processor.empty ∧
      exec (.stream data) t = .next (raise .notConstructed t)) ∧
    (key.length ≠ 32 → ∃ t, exec (.keyload key) s = .next t ∧
      t.processor = s.processor ∧ t.engine = s.engine)

/-! ### Key Derivation Service -/

/-- R151: MKLOAD of exactly 32 bytes replaces the master key and nothing else: the record stays. Any other length raises
InvalidKeyLength. -/
def Obligations.MkloadReplacesTheMasterKey : Prop :=
  ∀ (pay : List Byte) (s : State),
    (pay.length ≠ 32 → exec (.mkload pay) s = .next (raise .invalidKeyLength s)) ∧
    (pay.length = 32 → exec (.mkload pay) s = .next { s with
      kds := { s.kds with mk := bufferOf 32 pay, mkValid := true }
      tx := s.tx ++ [0x00, 0x00, 0x00] })

/-- R152: DERIVE faults without a master key, then on an empty payload, then on a label that would run past the
payload; otherwise it derives from the truncated label and context, stores the record and answers the derived key. -/
def Obligations.DeriveStoresAndReturnsTheKey : Prop :=
  ∀ (pay : List Byte) (s : State),
    (s.kds.mkValid = false → exec (.derive pay) s = .next (raise .notConstructed s)) ∧
    (s.kds.mkValid = true → pay = [] → exec (.derive pay) s = .next (raise .frameError s)) ∧
    (∀ (llen : Byte) (body : List Byte), pay = llen :: body → s.kds.mkValid = true →
      (body.length < llen.toNat → exec (.derive pay) s = .next (raise .frameError s)) ∧
      (llen.toNat ≤ body.length →
        let l2 := (body.take llen.toNat).take 64
        let c2 := (body.drop llen.toNat).take 64
        let dk := deriveKey s.kds.mk l2 c2
        exec (.derive pay) s = .next { s with
          kds := { s.kds with
            dk := bufferOf 32 dk, dkValid := true
            dlabel := bufferOf 64 l2, dllen := BitVec.ofNat 7 l2.length
            dcontext := bufferOf 64 c2, dclen := BitVec.ofNat 7 c2.length }
          tx := s.tx ++ [0x00, 0x20, 0x00] ++ dk }))

/-- R153: DKREAD faults without a record, then on a payload; otherwise it answers the record, `34 + DLLEN + DCLEN`
bytes, and writes no register. (DLLEN and DCLEN are at most 64 in every reachable state, R31.) -/
def Obligations.DkreadReturnsTheRecord : Prop :=
  ∀ (pay : List Byte) (s : State),
    (s.kds.dkValid = false → exec (.dkread pay) s = .next (raise .notConstructed s)) ∧
    (s.kds.dkValid = true → pay ≠ [] → exec (.dkread pay) s = .next (raise .frameError s)) ∧
    (s.kds.dkValid = true → pay = [] → s.kds.dllen.toNat ≤ 64 → s.kds.dclen.toNat ≤ 64 →
      ∃ rsp : List Byte,
        rsp = BitVec.ofNat 8 s.kds.dllen.toNat :: s.kds.dlabel.toList.take s.kds.dllen.toNat ++
          BitVec.ofNat 8 s.kds.dclen.toNat :: s.kds.dcontext.toList.take s.kds.dclen.toNat ++ s.kds.dk.toList ∧
        rsp.length = 34 + s.kds.dllen.toNat + s.kds.dclen.toNat ∧
        exec (.dkread pay) s = .next { s with tx := s.tx ++ responseFrame 0x00 rsp })

/-- From R154 and R152: no byte of a label or of a context past the first 64 counts, so a DERIVE with longer ones does
exactly what the DERIVE with the truncated ones does. That the first 64 are all kept is
`DeriveStoresAndReturnsTheKey`. -/
def Obligations.DeriveSeesOnlyTheFirst64Bytes : Prop :=
  ∀ (s : State) (label context : List Byte), label.length ≤ 255 →
    exec (deriveOf label context) s = exec (deriveOf (label.take 64) (context.take 64)) s

/-- R155: the diversification string is `label ‖ "||" ‖ context`, 2 to 130 bytes after truncation, and moving a `||`
across the boundary gives the same derived key and the same response. -/
def Obligations.SeparatorInsideATextCollides : Prop :=
  (∀ l c : List Byte, diversify l c = l ++ [0x7c, 0x7c] ++ c ∧
    2 ≤ (diversify (trunc64 l) (trunc64 c)).length ∧ (diversify (trunc64 l) (trunc64 c)).length ≤ 130) ∧
  ∀ (s : State) (a b c : List Byte), s.kds.mkValid = true → a.length + 2 + b.length ≤ 64 →
    b.length + 2 + c.length ≤ 64 →
    ∃ t u, exec (deriveOf (a ++ [0x7c, 0x7c] ++ b) c) s = .next t ∧
      exec (deriveOf a (b ++ [0x7c, 0x7c] ++ c)) s = .next u ∧ t.kds.dk = u.kds.dk ∧ t.tx = u.tx

/-- R179: with 32 output bytes the derivation is one PBKDF2 block: the exclusive or of `U_1 .. U_10000`, where `U_1` is
the HMAC of the diversification string and `00 00 00 01` and each next `U` the HMAC of the one before. -/
def Obligations.DeriveKeyIsTheXorOfTenThousandMacs : Prop :=
  ∀ (mk : Key) (label context : List Byte) (U : Nat → List Byte),
    U 1 = hmacSha256 mk.toList (diversify label context ++ [0x00, 0x00, 0x00, 0x01]) →
    (∀ j, U (j + 2) = hmacSha256 mk.toList (U (j + 1))) →
    deriveKey mk label context = (List.range 9999).foldl (fun acc j => xorBytes acc (U (j + 2))) (U 1)

/-- R160: the derived key is always 32 bytes, whatever the master key, the label and the context. -/
def Obligations.DerivedKeyIsThirtyTwoBytes : Prop :=
  ∀ (mk : Key) (label context : List Byte), (deriveKey mk label context).length = 32

/-- R174: padding appends `80`, the least number `z` of zero bytes that makes the length a multiple of 64, and the bit
length as eight big-endian bytes. -/
def Obligations.PaddingFillsTheLastBlock : Prop :=
  ∀ m : List Byte, ∃ z : Nat,
    shaPad m = m ++ [0x80] ++ List.replicate z 0 ++ toBE64 (BitVec.ofNat 64 (8 * m.length)) ∧
    (m.length + 1 + z + 8) % 64 = 0 ∧ ∀ z' < z, (m.length + 1 + z' + 8) % 64 ≠ 0

/-- The message schedule of R175: 64 words, the first 16 the block's big-endian words, every later one given by the
recurrence `SSIG1(W[t-2]) + W[t-7] + SSIG0(W[t-15]) + W[t-16]`. -/
def Obligations.MessageScheduleRecurrence : Prop :=
  ∀ block : List Byte,
    (messageSchedule block).length = 64 ∧
    (∀ t < 16, (messageSchedule block)[t]? = some (ofBE32 (block.getD (4 * t) 0) (block.getD (4 * t + 1) 0)
      (block.getD (4 * t + 2) 0) (block.getD (4 * t + 3) 0))) ∧
    ∀ t, t < 48 → (messageSchedule block)[t + 16]? =
      some (smallSigma1 ((messageSchedule block).getD (t + 14) 0) + (messageSchedule block).getD (t + 9) 0 +
        smallSigma0 ((messageSchedule block).getD (t + 1) 0) + (messageSchedule block).getD t 0)

/-- The published value of SHA-256 on "abc" (the second row of R181). -/
def Obligations.HashOfAbcIsThePublishedValue : Prop :=
  sha256 [0x61, 0x62, 0x63] =
    [0xba, 0x78, 0x16, 0xbf, 0x8f, 0x01, 0xcf, 0xea, 0x41, 0x41, 0x40, 0xde, 0x5d, 0xae, 0x22, 0x23,
     0xb0, 0x03, 0x61, 0xa3, 0x96, 0x17, 0x7a, 0x9c, 0xb4, 0x10, 0xff, 0x61, 0xf2, 0x00, 0x15, 0xad]

/-! ### Housekeeping -/

/-- R200, R33: STATUS with a payload raises FrameError; otherwise it answers FLAGS (the weighted sum of the five bits),
LASTFAULT and FAULTLOG low byte first, and writes no register. -/
def Obligations.StatusReportsFlagsAndRecords : Prop :=
  ∀ (pay : List Byte) (s : State),
    (pay ≠ [] → exec (.status pay) s = .next (raise .frameError s)) ∧
    (pay = [] → ∃ flags lo hi : Byte,
      flags.toNat = s.engine.keyValid.toNat + 2 * s.processor.spValid.toNat + 4 * s.processor.spClosed.toNat +
        8 * s.kds.mkValid.toNat + 16 * s.kds.dkValid.toNat ∧
      lo.toNat + 256 * hi.toNat = s.faults.faultLog.toNat ∧
      exec (.status pay) s = .next { s with
        tx := s.tx ++ [0x00, 0x04, 0x00, flags, s.faults.lastFault, lo, hi] })

/-- R201: ZEROIZE with a payload raises FrameError and erases nothing; otherwise the registers equal the reset state's
except the fault records, which keep their values. -/
def Obligations.ZeroizeErasesEverythingButTheRecords : Prop :=
  ∀ (pay : List Byte) (s : State),
    (pay ≠ [] → exec (.zeroize pay) s = .next (raise .frameError s)) ∧
    (pay = [] → exec (.zeroize pay) s = .next { State.reset with
      faults := s.faults
      resetReq := s.resetReq
      rx := s.rx
      tx := s.tx ++ [0x00, 0x00, 0x00] })

/-! ### Whole-machine rules -/

/-- The invariant of the registers (R21, R31, R35, R144 and the emptiness of what is not valid) holds at reset. -/
def Obligations.InvariantHoldsAtReset : Prop := State.reset.Inv

/-- Every step keeps the invariant of the registers. -/
def Obligations.EveryStepKeepsTheInvariant : Prop :=
  ∀ s t : State, s.Inv → step s = .next t → t.Inv

/-- R26, R133: while a processor exists, AUX stays the encryption of the all-zero block under the engine in RK. -/
def Obligations.EveryStepKeepsTheAuxiliaryValue : Prop :=
  ∀ s t : State, s.AuxInv → step s = .next t → t.AuxInv

/-- R29, R31: the record always belongs to its label and context, under whichever master key made it; a rotation of the
master key does not disturb it. -/
def Obligations.EveryStepKeepsTheRecordTrue : Prop :=
  ∀ s t : State, s.RecordInv → step s = .next t → t.RecordInv

/-- R20, column "Written by": a register changes only under the commands listed for it. -/
def Obligations.RegistersChangeOnlyByTheirWriters : Prop :=
  ∀ (i : Instr) (s t : State), exec i s = .next t →
    (t.engine ≠ s.engine → opcodeOf i ∈ ([0x01, 0x31] : List Byte)) ∧
    (t.processor.ctr ≠ s.processor.ctr → opcodeOf i ∈ ([0x10, 0x11, 0x01, 0x31] : List Byte)) ∧
    (t.processor.ks ≠ s.processor.ks → opcodeOf i ∈ ([0x11, 0x10, 0x01, 0x31] : List Byte)) ∧
    (t.processor.aux ≠ s.processor.aux → opcodeOf i ∈ ([0x10, 0x01, 0x31] : List Byte)) ∧
    (t.processor.spValid ≠ s.processor.spValid → opcodeOf i ∈ ([0x10, 0x01, 0x31] : List Byte)) ∧
    (t.processor.spClosed ≠ s.processor.spClosed → opcodeOf i ∈ ([0x11, 0x10, 0x01, 0x31] : List Byte)) ∧
    ((t.kds.mk ≠ s.kds.mk ∨ t.kds.mkValid ≠ s.kds.mkValid) → opcodeOf i ∈ ([0x20, 0x31] : List Byte)) ∧
    ((t.kds.dk ≠ s.kds.dk ∨ t.kds.dlabel ≠ s.kds.dlabel ∨ t.kds.dllen ≠ s.kds.dllen ∨
      t.kds.dcontext ≠ s.kds.dcontext ∨ t.kds.dclen ≠ s.kds.dclen ∨ t.kds.dkValid ≠ s.kds.dkValid) →
      opcodeOf i ∈ ([0x21, 0x31] : List Byte)) ∧
    (t.faults ≠ s.faults → ∃ f ∈ raisable i, t = raise f s)

/-- Issuing a command again, other than a STREAM with data, leaves the registers it left the first time and gives the
same response bytes again (the "yes" rows of R59). -/
def Obligations.ReissuingACommandIsIdempotent : Prop :=
  ∀ (i : Instr) (s t : State), (∀ data, i = .stream data → data = []) → exec i s = .next t →
    ∃ rsp, t.tx = s.tx ++ rsp ∧ exec i t = .next { t with tx := t.tx ++ rsp }

/-- R150: the Key Derivation Service and the cipher share no data. A command of the engine or the stream processor
neither reads nor writes a KDS register, and a command of the KDS neither reads nor writes a register of the other
two. -/
def Obligations.KdsAndCipherAreIndependent : Prop :=
  ∀ (i : Instr) (s t : State), exec i s = .next t →
    (opcodeOf i ∈ ([0x01, 0x02, 0x03, 0x10, 0x11] : List Byte) →
      t.kds = s.kds ∧ ∀ k, exec i { s with kds := k } = .next { t with kds := k }) ∧
    (opcodeOf i ∈ ([0x20, 0x21, 0x22] : List Byte) →
      t.engine = s.engine ∧ t.processor = s.processor ∧
      ∀ e p, exec i { s with engine := e, processor := p } = .next { t with engine := e, processor := p })

/-- R41: what a register holds while its valid bit is 0 cannot be told by any command: two states that agree on the
valid bits, the valid registers, the records and the ports answer alike and go on agreeing, whatever their other
registers hold. The premise is the first half of R144, an invariant of every reachable state. -/
def Obligations.InvalidRegistersAreUnobservable : Prop :=
  ∀ s t s' t' : State, (s.processor.spValid = true → s.engine.keyValid = true) → s.AgreeOnValid t →
    step s = .next s' → step t = .next t' →
    s'.AgreeOnValid t' ∧ (s'.processor.spValid = true → s'.engine.keyValid = true)

/-- R25, R26: AUX is read by nothing and KS is never read before it is rewritten: whatever the two hold, a command
answers the same and leaves every other register the same. -/
def Obligations.AuxAndOldKeystreamAreNeverRead : Prop :=
  ∀ (i : Instr) (s t : State) (aux ks : Block), exec i s = .next t →
    ∃ aux' ks', exec i { s with processor := { s.processor with aux := aux, ks := ks } } =
      .next { t with processor := { t.processor with aux := aux', ks := ks' } }
end

