-- ==== Sys2Proof/Laws/Bytes.lean ====
section
/-! SUPPORT. Byte order and byte strings: each conversion is undone by its inverse, and reading a whole payload gives
the payload. -/

namespace Sys2Proof

/-- Bit `j` of byte `i` is bit `8i + j` of the value. -/
@[simp] theorem byteAt_getLsbD {w : Nat} (v : BitVec w) (i j : Nat) :
    (byteAt v i).getLsbD j = (decide (j < 8) && v.getLsbD (8 * i + j)) := by
  simp [byteAt]

/-- The four little-endian bytes of a word give the word back. -/
@[simp] theorem ofLE32_byteAt (v : Word) :
    ofLE32 (byteAt v 0) (byteAt v 1) (byteAt v 2) (byteAt v 3) = v := by
  apply BitVec.eq_of_getLsbD_eq
  intro i hi
  simp only [ofLE32, BitVec.getLsbD_append, byteAt_getLsbD]
  grind

/-- Each byte of the little-endian word of four bytes is the byte at that offset. -/
@[simp] theorem byteAt_ofLE32 (b0 b1 b2 b3 : Byte) :
    byteAt (ofLE32 b0 b1 b2 b3) 0 = b0 ∧ byteAt (ofLE32 b0 b1 b2 b3) 1 = b1 ∧
    byteAt (ofLE32 b0 b1 b2 b3) 2 = b2 ∧ byteAt (ofLE32 b0 b1 b2 b3) 3 = b3 := by
  refine ⟨?_, ?_, ?_, ?_⟩ <;>
  · apply BitVec.eq_of_getLsbD_eq
    intro i hi
    simp only [ofLE32, BitVec.getLsbD_append, byteAt_getLsbD]
    grind

/-- The value of a little-endian word, byte by byte (R14). -/
theorem ofLE32_toNat (b0 b1 b2 b3 : Byte) :
    (ofLE32 b0 b1 b2 b3).toNat = b0.toNat + 2 ^ 8 * b1.toNat + 2 ^ 16 * b2.toNat + 2 ^ 24 * b3.toNat := by
  have h0 := b0.isLt
  have h1 := b1.isLt
  have h2 := b2.isLt
  simp only [ofLE32, BitVec.toNat_append]
  rw [← Nat.shiftLeft_add_eq_or_of_lt h2, ← Nat.shiftLeft_add_eq_or_of_lt h1,
    ← Nat.shiftLeft_add_eq_or_of_lt h0]
  simp only [Nat.shiftLeft_eq]
  omega

/-- The eight little-endian bytes of a 64-bit value give the value back. -/
@[simp] theorem ofLE64_toLE64 (v : BitVec 64) : ofLE64 (toLE64 v) = v := by
  apply BitVec.eq_of_getLsbD_eq
  intro i hi
  simp only [ofLE64, toLE64, BitVec.getLsbD_append, Vector.getElem_mk, List.getElem_toArray,
    List.getElem_cons_succ, List.getElem_cons_zero, byteAt_getLsbD]
  grind

/-- An 8-byte buffer is the little-endian bytes of its 64-bit value. -/
@[simp] theorem toLE64_ofLE64 (ctr : Block) : toLE64 (ofLE64 ctr) = ctr := by
  apply Vector.ext
  intro i hi
  have h : i = 0 ∨ i = 1 ∨ i = 2 ∨ i = 3 ∨ i = 4 ∨ i = 5 ∨ i = 6 ∨ i = 7 := by omega
  rcases h with rfl | rfl | rfl | rfl | rfl | rfl | rfl | rfl <;>
  · apply BitVec.eq_of_getLsbD_eq
    intro j hj
    simp only [ofLE64, toLE64, BitVec.getLsbD_append, Vector.getElem_mk, List.getElem_toArray,
      List.getElem_cons_succ, List.getElem_cons_zero, byteAt_getLsbD]
    grind

/-- A 16-bit little-endian length, byte by byte (R71). -/
theorem ofLE16_eq (lo hi : Byte) : ofLE16 lo hi = lo.toNat + 256 * hi.toNat := by
  have h := lo.isLt
  simp only [ofLE16, BitVec.toNat_append]
  rw [← Nat.shiftLeft_add_eq_or_of_lt h, Nat.shiftLeft_eq]
  omega

/-- A length that fits 16 bits is read back from its two bytes. -/
theorem ofLE16_toLE16 {n : Nat} (h : n < 2 ^ 16) :
    ofLE16 (byteAt (BitVec.ofNat 16 n) 0) (byteAt (BitVec.ofNat 16 n) 1) = n := by
  have e : ((byteAt (BitVec.ofNat 16 n) 1) ++ (byteAt (BitVec.ofNat 16 n) 0) : BitVec 16) = BitVec.ofNat 16 n := by
    apply BitVec.eq_of_getLsbD_eq
    intro i hi
    simp only [BitVec.getLsbD_append, byteAt_getLsbD]
    grind
  simp only [ofLE16, e, BitVec.toNat_ofNat, Nat.mod_eq_of_lt h]

@[simp] theorem toLE16_length (n : Nat) : (toLE16 n).length = 2 := rfl

@[simp] theorem toBE32_length (v : Word) : (toBE32 v).length = 4 := rfl

@[simp] theorem toBE64_length (v : BitVec 64) : (toBE64 v).length = 8 := rfl

theorem memRead_length (pay : List Byte) (addr n : Nat) :
    (memRead pay addr n).length = min n (pay.length - addr) := by
  simp [memRead]

/-- Reading a payload whole gives the payload. -/
@[simp] theorem memRead_all (pay : List Byte) : memRead pay 0 pay.length = pay := by
  simp [memRead]

theorem memRead_all' {pay : List Byte} {n : Nat} (h : pay.length = n) : memRead pay 0 n = pay := by
  subst h; simp

@[simp] theorem bufferOf_getElem (n : Nat) (bytes : List Byte) (i : Nat) (h : i < n) :
    (bufferOf n bytes)[i] = bytes.getD i 0 := by
  simp [bufferOf]

/-- A buffer made of exactly as many bytes as it holds has those bytes. -/
theorem bufferOf_toList {n : Nat} {bytes : List Byte} (h : bytes.length = n) :
    (bufferOf n bytes).toList = bytes := by
  apply List.ext_getElem
  · simp [h]
  · intro i h1 h2
    simp [List.getD_eq_getElem?_getD, List.getElem?_eq_getElem h2]

/-- The first bytes of a longer buffer are the bytes it was made of. -/
theorem bufferOf_take {n : Nat} {bytes : List Byte} (h : bytes.length ≤ n) :
    (bufferOf n bytes).toList.take bytes.length = bytes := by
  apply List.ext_getElem
  · simp [h]
  · intro i h1 h2
    simp [List.getD_eq_getElem?_getD, List.getElem?_eq_getElem h2]

/-- Beyond the bytes it was made of a buffer holds zeros. -/
theorem bufferOf_zero {n : Nat} {bytes : List Byte} {i : Nat} (h : bytes.length ≤ i) (hi : i < n) :
    (bufferOf n bytes)[i] = 0 := by
  simp [List.getD_eq_getElem?_getD, List.getElem?_eq_none h]

@[simp] theorem xorBytes_length (a b : List Byte) : (xorBytes a b).length = min a.length b.length := by
  simp [xorBytes]

theorem trunc64_length (text : List Byte) : (trunc64 text).length = min 64 text.length := by
  simp [trunc64]

/-- An operand of the legal length is the payload itself. -/
theorem keyOperand_eq {pay : List Byte} (h : pay.length = 32) : keyOperand pay = bufferOf 32 pay := by
  simp [keyOperand, memRead_all' h]

theorem blockOperand_eq {pay : List Byte} (h : pay.length = 8) : blockOperand pay = bufferOf 8 pay := by
  simp [blockOperand, memRead_all' h]

/-- What the operands of a DERIVE payload are, once its first byte is split off (R75, R77). -/
theorem deriveOperands_cons (llen : Byte) (body : List Byte) :
    labelLength (llen :: body) = llen.toNat ∧
    labelOperand (llen :: body) = body.take llen.toNat ∧
    contextOperand (llen :: body) = body.drop llen.toNat := by
  refine ⟨rfl, by simp [labelOperand, labelLength, memRead], ?_⟩
  simp only [contextOperand, labelLength, memRead, List.headD_cons, List.length_cons, Nat.add_sub_cancel]
  rw [Nat.add_comm 1, List.drop_succ_cons]
  exact List.take_of_length_le (by simp)

end Sys2Proof
end

