-- ==== Sys2Proof/Laws/State.lean ====
section
/-! SUPPORT. One lemma per field for each operation that updates the state, so that no proof unfolds an update. -/

namespace Sys2Proof.Machine

variable (s : State) (st : Byte) (rsp bytes rest : List Byte) (f : FaultCode) (n : Nat)

@[simp] theorem respond_engine : (respond st rsp s).engine = s.engine := rfl
@[simp] theorem respond_processor : (respond st rsp s).processor = s.processor := rfl
@[simp] theorem respond_kds : (respond st rsp s).kds = s.kds := rfl
@[simp] theorem respond_faults : (respond st rsp s).faults = s.faults := rfl
@[simp] theorem respond_resetReq : (respond st rsp s).resetReq = s.resetReq := rfl
@[simp] theorem respond_rx : (respond st rsp s).rx = s.rx := rfl
@[simp] theorem respond_tx : (respond st rsp s).tx = s.tx ++ responseFrame st rsp := rfl

@[simp] theorem complete_engine : (complete rsp s).engine = s.engine := rfl
@[simp] theorem complete_processor : (complete rsp s).processor = s.processor := rfl
@[simp] theorem complete_kds : (complete rsp s).kds = s.kds := rfl
@[simp] theorem complete_faults : (complete rsp s).faults = s.faults := rfl
@[simp] theorem complete_resetReq : (complete rsp s).resetReq = s.resetReq := rfl
@[simp] theorem complete_rx : (complete rsp s).rx = s.rx := rfl
@[simp] theorem complete_tx : (complete rsp s).tx = s.tx ++ responseFrame 0x00 rsp := rfl

@[simp] theorem raise_engine : (raise f s).engine = s.engine := rfl
@[simp] theorem raise_processor : (raise f s).processor = s.processor := rfl
@[simp] theorem raise_kds : (raise f s).kds = s.kds := rfl
@[simp] theorem raise_faults : (raise f s).faults = recordFault f s.faults := rfl
@[simp] theorem raise_resetReq : (raise f s).resetReq = s.resetReq := rfl
@[simp] theorem raise_rx : (raise f s).rx = s.rx := rfl
@[simp] theorem raise_tx : (raise f s).tx = s.tx ++ responseFrame (faultCode f) [] := rfl

@[simp] theorem consume_engine : (consume rest s).engine = s.engine := rfl
@[simp] theorem consume_processor : (consume rest s).processor = s.processor := rfl
@[simp] theorem consume_kds : (consume rest s).kds = s.kds := rfl
@[simp] theorem consume_faults : (consume rest s).faults = s.faults := rfl
@[simp] theorem consume_resetReq : (consume rest s).resetReq = s.resetReq := rfl
@[simp] theorem consume_rx : (consume rest s).rx = rest := rfl
@[simp] theorem consume_tx : (consume rest s).tx = s.tx := rfl

@[simp] theorem hostSend_rx : (s.hostSend bytes).rx = s.rx ++ bytes := rfl
@[simp] theorem hostSend_resetReq : (s.hostSend bytes).resetReq = s.resetReq := rfl
@[simp] theorem hostTake_tx : (s.hostTake n).tx = s.tx.drop n := rfl
@[simp] theorem hostReset_resetReq : s.hostReset.resetReq = true := rfl

@[simp] theorem recordFault_lastFault (r : FaultRecord) : (recordFault f r).lastFault = faultCode f := rfl
@[simp] theorem recordFault_faultLog (r : FaultRecord) :
    (recordFault f r).faultLog = r.faultLog ||| faultBit f := rfl

end Sys2Proof.Machine
end

