-- ==== Sys2Proof/Laws/Ops.lean ====
section
/-! SUPPORT. Once for each shared operation, everything it can do: what `guarded` and `firstFault` answer, what a frame
is made of, and how a frame is taken apart. Proofs cite these and do not unfold the operations. -/

namespace Sys2Proof.Machine

/-- The first failing check is the fault that is reported (R226). -/
@[simp] theorem firstFault_cons (fails : Bool) (f : FaultCode) (rest : List (Bool × FaultCode)) :
    firstFault ((fails, f) :: rest) = if fails then some f else firstFault rest := rfl

@[simp] theorem firstFault_nil : firstFault [] = none := rfl

/-- The fault reported is one of those listed. -/
theorem firstFault_mem {checks : List (Bool × FaultCode)} {f : FaultCode} (h : firstFault checks = some f) :
    (true, f) ∈ checks := by
  induction checks with
  | nil => simp at h
  | cons c rest ih =>
    obtain ⟨b, g⟩ := c
    cases b with
    | true => simp_all
    | false => simp_all

/-- No fault is reported exactly when every check passes. -/
theorem firstFault_eq_none {checks : List (Bool × FaultCode)} :
    firstFault checks = none ↔ ∀ c ∈ checks, c.1 = false := by
  induction checks with
  | nil => simp
  | cons c rest ih =>
    obtain ⟨b, g⟩ := c
    cases b <;> simp [ih]

/-- A guarded command takes the first fault its checks report. -/
theorem guarded_fault {checks : List (Bool × FaultCode)} {f : FaultCode} (h : firstFault checks = some f)
    (s done : State) : guarded checks s done = .next (raise f s) := by
  simp [guarded, h]

/-- A guarded command whose checks all pass ends as it says. -/
theorem guarded_pass {checks : List (Bool × FaultCode)} (h : firstFault checks = none)
    (s done : State) : guarded checks s done = .next done := by
  simp [guarded, h]

/-- Everything a guarded command can answer: a listed fault taken in the state it found, or its own end. -/
theorem guarded_next {checks : List (Bool × FaultCode)} {s done t : State}
    (h : guarded checks s done = .next t) :
    (∃ f, firstFault checks = some f ∧ t = raise f s) ∨ (firstFault checks = none ∧ t = done) := by
  unfold guarded at h
  split at h <;> simp_all

/-- A response without payload is three bytes (R72). -/
@[simp] theorem responseFrame_nil (st : Byte) : responseFrame st [] = [st, 0x00, 0x00] := rfl

@[simp] theorem frame_length (tag : Byte) (payload : List Byte) :
    (frame tag payload).length = 3 + payload.length := by
  simp [frame]; omega

/-- The first frame of a byte string is split off whole (R71, R72). -/
theorem unframe_frame {payload : List Byte} (h : payload.length < 2 ^ 16) (tag : Byte) (rest : List Byte) :
    unframe (frame tag payload ++ rest) = some (tag, payload, rest) := by
  simp [frame, toLE16, unframe, ofLE16_toLE16 h]

/-- Fewer than three header bytes are no frame yet (R73). -/
theorem unframe_short {bytes : List Byte} (h : bytes.length < 3) : unframe bytes = none := by
  match bytes with
  | [] => rfl
  | [_] => rfl
  | [_, _] => rfl
  | _ :: _ :: _ :: _ => simp at h; omega

/-- Everything `unframe` can answer about a whole frame. -/
theorem unframe_some {bytes payload rest : List Byte} {tag : Byte}
    (h : unframe bytes = some (tag, payload, rest)) :
    ∃ lo hi, bytes = tag :: lo :: hi :: (payload ++ rest) ∧ payload.length = ofLE16 lo hi := by
  match bytes with
  | [] => simp [unframe] at h
  | [_] => simp [unframe] at h
  | [_, _] => simp [unframe] at h
  | t :: lo :: hi :: body =>
    simp only [unframe] at h
    split at h
    · simp at h
    · simp only [Option.some.injEq, Prod.mk.injEq] at h
      obtain ⟨rfl, rfl, rfl⟩ := h
      exact ⟨lo, hi, by simp, by simp; omega⟩

/-- Everything `decode` can answer. -/
theorem decode_cases (bytes : List Byte) :
    (decode bytes = .hold ∧ unframe bytes = none) ∨
    (∃ opc pay rest i, unframe bytes = some (opc, pay, rest) ∧ instrOf opc pay = some i ∧
      decode bytes = .command i rest) ∨
    (∃ opc pay rest, unframe bytes = some (opc, pay, rest) ∧ instrOf opc pay = none ∧
      decode bytes = .illegal opc rest) := by
  unfold decode
  split
  · simp_all
  · split <;> simp_all

end Sys2Proof.Machine
end

