-- ==== Sys2Proof/Laws/Exec.lean ====
section
/-! SUPPORT. Once for all commands, the shape of `exec`: checks, then one end (60_exceptions R218: all checks precede all
writes). A whole-machine proof cites `exec_eq_guarded` or `exec_cases` and looks at a command's checks and end only
where it must. -/

namespace Sys2Proof.Machine

/-- The checks of a command, in order (R226). -/
def checksOf : Instr → State → List (Bool × FaultCode)
  | .keyload pay, _ => checksKeyload pay
  | .encblk pay, s => checksBlock pay s
  | .decblk pay, s => checksBlock pay s
  | .spinit pay, s => checksSpinit pay s
  | .stream pay, s => checksStream pay s
  | .mkload pay, _ => checksMkload pay
  | .derive pay, s => checksDerive pay s
  | .dkread pay, s => checksDkread pay s
  | .status pay, _ => checksEmpty pay
  | .zeroize pay, _ => checksEmpty pay

/-- The response payload of a command that succeeds (R76). -/
def responseOf : Instr → State → List Byte
  | .keyload _, _ => []
  | .encblk pay, s => (encryptBlock Config.sbox s.engine.rk (blockOperand pay)).toList
  | .decblk pay, s => (decryptBlock Config.sbox s.engine.rk (blockOperand pay)).toList
  | .spinit _, _ => []
  | .stream pay, s => (streamBytes Config.sbox s.engine.rk 0 pay s.processor).2
  | .mkload _, _ => []
  | .derive pay, s =>
    deriveKey s.kds.mk (trunc64 (labelOperand pay)) (trunc64 (contextOperand pay))
  | .dkread _, s => recordBytes s.kds
  | .status _, s => statusBytes s
  | .zeroize _, _ => []

/-- The registers a command that succeeds leaves. -/
def effectOf : Instr → State → State
  | .keyload pay, s => constructEngine (keyOperand pay) s
  | .encblk _, s => s
  | .decblk _, s => s
  | .spinit pay, s =>
    { s with processor := constructProcessor Config.sbox s.engine.rk (blockOperand pay) }
  | .stream pay, s =>
    { s with processor := closeIfShort pay.length (streamBytes Config.sbox s.engine.rk 0 pay s.processor).1 }
  | .mkload pay, s => { s with kds := { s.kds with mk := keyOperand pay, mkValid := true } }
  | .derive pay, s =>
    let label := trunc64 (labelOperand pay)
    let context := trunc64 (contextOperand pay)
    { s with kds := storeRecord (deriveKey s.kds.mk label context) label context s.kds }
  | .dkread _, s => s
  | .status _, s => s
  | .zeroize _, s => eraseSecrets s

/-- Every command is its checks, then its end. -/
theorem exec_eq_guarded (i : Instr) (s : State) :
    exec i s = guarded (checksOf i s) s (complete (responseOf i s) (effectOf i s)) := by
  cases i <;> rfl

/-- No command writes the fault records or the ports when it succeeds; its response is all it adds. -/
@[simp] theorem effectOf_faults (i : Instr) (s : State) : (effectOf i s).faults = s.faults := by
  cases i <;> rfl

@[simp] theorem effectOf_resetReq (i : Instr) (s : State) : (effectOf i s).resetReq = s.resetReq := by
  cases i <;> rfl

@[simp] theorem effectOf_rx (i : Instr) (s : State) : (effectOf i s).rx = s.rx := by
  cases i <;> rfl

@[simp] theorem effectOf_tx (i : Instr) (s : State) : (effectOf i s).tx = s.tx := by
  cases i <;> rfl

/-- Everything a command can answer: a fault its checks report, or its end; always a next state (R70, R236). -/
theorem exec_cases (i : Instr) (s : State) :
    (∃ f, firstFault (checksOf i s) = some f ∧ exec i s = .next (raise f s)) ∨
    (firstFault (checksOf i s) = none ∧ exec i s = .next (complete (responseOf i s) (effectOf i s))) := by
  rw [exec_eq_guarded]
  rcases h : firstFault (checksOf i s) with _ | f
  · exact .inr ⟨rfl, guarded_pass h _ _⟩
  · exact .inl ⟨f, rfl, guarded_fault h _ _⟩

/-- Everything a step can do: the reset event, the hold, the illegal opcode, or a command. -/
theorem step_cases (s : State) :
    (s.resetReq = true ∧ step s = .next State.reset) ∨
    (s.resetReq = false ∧ decode s.rx = .hold ∧ step s = .next s) ∨
    (∃ opc rest, s.resetReq = false ∧ decode s.rx = .illegal opc rest ∧
      step s = .next (raise .illegalCommand (consume rest s))) ∨
    (∃ i rest, s.resetReq = false ∧ decode s.rx = .command i rest ∧ step s = exec i (consume rest s)) := by
  cases hr : s.resetReq with
  | true => exact .inl ⟨rfl, by simp [step, hr, execReset]⟩
  | false =>
    cases hd : decode s.rx with
    | hold => exact .inr (.inl ⟨rfl, rfl, by simp [step, hr, fetch, hd, execHold]⟩)
    | illegal opc rest =>
      exact .inr (.inr (.inl ⟨opc, rest, rfl, rfl, by simp [step, hr, fetch, hd, execIllegal]⟩))
    | command i rest => exact .inr (.inr (.inr ⟨i, rest, rfl, rfl, by simp [step, hr, fetch, hd]⟩))

end Sys2Proof.Machine
end

