-- ==== Sys2Proof/Laws/Engine.lean ====
section
/-! SUPPORT. The block transform's shared pieces: how a block is taken apart and written out, and what each word of a
schedule is. -/

namespace Sys2Proof.Machine

/-- Decoding what was written out gives the halves exchanged (R51: read (left, right), written (right, left)). -/
@[simp] theorem decodeBlock_writeOut (h : Halves) : decodeBlock (writeOut h) = ⟨h.right, h.left⟩ := by
  simp [decodeBlock, writeOut]

/-- Writing out the exchanged halves of a block gives the block. -/
@[simp] theorem writeOut_decodeBlock (b : Block) :
    writeOut ⟨(decodeBlock b).right, (decodeBlock b).left⟩ = b := by
  apply Vector.ext
  intro i hi
  have h : i = 0 ∨ i = 1 ∨ i = 2 ∨ i = 3 ∨ i = 4 ∨ i = 5 ∨ i = 6 ∨ i = 7 := by omega
  rcases h with rfl | rfl | rfl | rfl | rfl | rfl | rfl | rfl <;> simp [writeOut, decodeBlock]

/-- Round keys 0 to 23 are the key words, three times in order (R105). -/
theorem expandKey_forward (key : Key) (i : Nat) (h : i < 24) :
    (expandKey key)[i] = keyWord key ⟨i % 8, Nat.mod_lt _ (by decide)⟩ := by
  simp [expandKey, h]

/-- Round keys 24 to 31 are the key words in reverse order (R105). -/
theorem expandKey_reverse (key : Key) (i : Nat) (h : 24 ≤ i) (h' : i < 32) :
    (expandKey key)[i] = keyWord key ⟨31 - i, by omega⟩ := by
  simp [expandKey, show ¬ i < 24 by omega]

@[simp] theorem feistelRound_left (S : SBox) (h : Halves) (k : Word) : (feistelRound S h k).left = h.right := rfl

@[simp] theorem feistelRound_right (S : SBox) (h : Halves) (k : Word) :
    (feistelRound S h k).right = h.left ^^^ roundF S h.right k := rfl

@[simp] theorem constructEngine_engine (key : Key) (s : State) :
    (constructEngine key s).engine = { rk := expandKey key, keyValid := true } := rfl

@[simp] theorem constructEngine_processor (key : Key) (s : State) :
    (constructEngine key s).processor = Processor.empty := rfl

@[simp] theorem constructEngine_kds (key : Key) (s : State) : (constructEngine key s).kds = s.kds := rfl

end Sys2Proof.Machine
end

