-- ==== Sys2Proof/Laws/Stream.lean ====
section
/-! SUPPORT. The counter and the byte loop of STREAM: what repeated increments give, what the loop keeps and how long
its output is. -/

namespace Sys2Proof.Machine

/-- `k` increments add `k` to the counter, modulo 2^64 (R131). -/
theorem inc_iterate (ctr : Block) (k : Nat) : inc^[k] ctr = toLE64 (ofLE64 ctr + BitVec.ofNat 64 k) := by
  induction k with
  | zero => simp
  | succ k ih =>
    rw [Function.iterate_succ_apply', ih]
    simp only [inc, ofLE64_toLE64, BitVec.add_assoc]
    congr 2
    apply BitVec.eq_of_toNat_eq
    simp [BitVec.toNat_add]

@[simp] theorem nextKeystreamBlock_ctr (S : SBox) (rk : Schedule) (p : Processor) :
    (nextKeystreamBlock S rk p).ctr = inc p.ctr := rfl

@[simp] theorem nextKeystreamBlock_ks (S : SBox) (rk : Schedule) (p : Processor) :
    (nextKeystreamBlock S rk p).ks = encryptBlock S rk (inc p.ctr) := rfl

@[simp] theorem nextKeystreamBlock_aux (S : SBox) (rk : Schedule) (p : Processor) :
    (nextKeystreamBlock S rk p).aux = p.aux := rfl

@[simp] theorem nextKeystreamBlock_spValid (S : SBox) (rk : Schedule) (p : Processor) :
    (nextKeystreamBlock S rk p).spValid = p.spValid := rfl

@[simp] theorem nextKeystreamBlock_spClosed (S : SBox) (rk : Schedule) (p : Processor) :
    (nextKeystreamBlock S rk p).spClosed = p.spClosed := rfl

/-- The byte loop writes CTR and KS and no other register of the group. -/
theorem streamBytes_keeps (S : SBox) (rk : Schedule) (pay : List Byte) (i : Nat) (p : Processor) :
    (streamBytes S rk i pay p).1.aux = p.aux ∧ (streamBytes S rk i pay p).1.spValid = p.spValid ∧
    (streamBytes S rk i pay p).1.spClosed = p.spClosed := by
  induction pay generalizing i p with
  | nil => simp [streamBytes]
  | cons x xs ih =>
    simp only [streamBytes, ih]
    split <;> simp

/-- One output byte for each input byte (R134). -/
@[simp] theorem streamBytes_length (S : SBox) (rk : Schedule) (pay : List Byte) (i : Nat) (p : Processor) :
    (streamBytes S rk i pay p).2.length = pay.length := by
  induction pay generalizing i p with
  | nil => rfl
  | cons x xs ih => simp [streamBytes, ih]

@[simp] theorem closeIfShort_ctr (n : Nat) (p : Processor) : (closeIfShort n p).ctr = p.ctr := rfl
@[simp] theorem closeIfShort_ks (n : Nat) (p : Processor) : (closeIfShort n p).ks = p.ks := rfl
@[simp] theorem closeIfShort_aux (n : Nat) (p : Processor) : (closeIfShort n p).aux = p.aux := rfl
@[simp] theorem closeIfShort_spValid (n : Nat) (p : Processor) : (closeIfShort n p).spValid = p.spValid := rfl
@[simp] theorem closeIfShort_spClosed (n : Nat) (p : Processor) :
    (closeIfShort n p).spClosed = if n % 8 = 0 then p.spClosed else true := rfl

end Sys2Proof.Machine
end

