-- ==== Sys2Proof/Laws/Hash.lean ====
section
/-! SUPPORT. Lengths of the hash primitives' outputs. -/

namespace Sys2Proof.Machine

@[simp] theorem sha256_length (m : List Byte) : (sha256 m).length = 32 := by
  simp [sha256, HashWords.bytes]

@[simp] theorem hmacSha256_length (key msg : List Byte) : (hmacSha256 key msg).length = 32 := by
  simp [hmacSha256]

/-- The padded key of HMAC is one whole hash block (R177). -/
theorem hmacBlock_length (key : List Byte) : (hmacBlock key).length = 64 := by
  unfold hmacBlock
  split
  · simp
  · simp
    omega

theorem pbkdf2Iterate_length (password : List Byte) (n : Nat) (u t : List Byte) (h : t.length = 32) :
    (pbkdf2Iterate password n u t).length = 32 := by
  induction n generalizing u t with
  | zero => simpa [pbkdf2Iterate]
  | succ n ih => exact ih _ _ (by simp [h])

@[simp] theorem pbkdf2Block_length (password salt : List Byte) (c i : Nat) :
    (pbkdf2Block password salt c i).length = 32 :=
  pbkdf2Iterate_length _ _ _ _ (by simp)

/-- One block of output, 32 bytes, is the whole output when 32 bytes are asked for (R178). -/
theorem pbkdf2_one_block (password salt : List Byte) (c : Nat) :
    pbkdf2 password salt c 32 = pbkdf2Block password salt c 1 := by
  simp [pbkdf2, List.range_succ, List.take_of_length_le]

end Sys2Proof.Machine
end

