-- ==== Sys2Proof/Laws/PerInstr.lean ====
section
/-! SUPPORT. One lemma per command: the opcode it is encoded with is the opcode it is decoded from (30_encoding R74). -/

namespace Sys2Proof.Laws.OpcodeReadBack

/-- The opcode map at a command's own opcode and payload gives the command. -/
def Statement (i : Instr) : Prop := instrOf (opcodeOf i) i.payload = some i

theorem keyload (key : List Byte) : Statement (.keyload key) := rfl
theorem encblk (src : List Byte) : Statement (.encblk src) := rfl
theorem decblk (src : List Byte) : Statement (.decblk src) := rfl
theorem spinit (nonce : List Byte) : Statement (.spinit nonce) := rfl
theorem stream (data : List Byte) : Statement (.stream data) := rfl
theorem mkload (key : List Byte) : Statement (.mkload key) := rfl
theorem derive (pay : List Byte) : Statement (.derive pay) := rfl
theorem dkread (pay : List Byte) : Statement (.dkread pay) := rfl
theorem status (pay : List Byte) : Statement (.status pay) := rfl
theorem zeroize (pay : List Byte) : Statement (.zeroize pay) := rfl

end Sys2Proof.Laws.OpcodeReadBack
end

