-- ==== Sys2Proof/Machine/Assembler.lean ====
section
/-! DEFINITION. The textual form of commands, programs' lines and responses (30_encoding R82, R83). It is notation of
the host's side: no step of the core reads or writes text. Lines are lists of characters. -/

namespace Sys2Proof.Machine

/-- The value of a hexadecimal digit of either case. -/
def hexDigit (ch : Char) : Option Nat :=
  let n := ch.toNat
  if 48 ≤ n ∧ n ≤ 57 then some (n - 48)
  else if 97 ≤ n ∧ n ≤ 102 then some (n - 87)
  else if 65 ≤ n ∧ n ≤ 70 then some (n - 55)
  else none

/-- The bytes of a hex item after its opening `h'`, up to the closing quote, and what follows it: pairs of digits,
spaces allowed between them (R82). -/
def hexItem : List Char → Option (List Byte × List Char)
  | '\'' :: rest => some ([], rest)
  | ' ' :: rest => hexItem rest
  | a :: b :: rest =>
    match hexDigit a, hexDigit b, hexItem rest with
    | some x, some y, some (bytes, rest') => some (BitVec.ofNat 8 (16 * x + y) :: bytes, rest')
    | _, _, _ => none
  | _ => none

/-- The bytes of an ASCII item after its opening quote, up to the closing one, and what follows it (R82). -/
def asciiItem : List Char → Option (List Byte × List Char)
  | '"' :: rest => some ([], rest)
  | ch :: rest =>
    match asciiItem rest with
    | some (bytes, rest') => if ch.toNat < 128 then some (BitVec.ofNat 8 ch.toNat :: bytes, rest') else none
    | none => none
  | [] => none

/-- One payload item: `h'..'` or a quoted string (R82). -/
def item : List Char → Option (List Byte × List Char)
  | 'h' :: '\'' :: rest => hexItem rest
  | '"' :: rest => asciiItem rest
  | _ => none

/-- Text without its leading spaces. -/
def skipSpaces (text : List Char) : List Char := text.dropWhile (· == ' ')

/-- Nothing more on the line but a comment (R82). -/
def lineEnds (text : List Char) : Bool :=
  match skipSpaces text with
  | [] => true
  | ch :: _ => ch == ';'

/-- The comma-separated items up to the end of the line or its comment; `fuel` is any bound on their number (R82). -/
def items : Nat → List Char → Option (List (List Byte))
  | 0, _ => none
  | fuel + 1, text =>
    match item (skipSpaces text) with
    | none => none
    | some (bytes, rest) =>
      match skipSpaces rest with
      | ',' :: rest' => (items fuel rest').map (bytes :: ·)
      | rest' => if lineEnds rest' then some [bytes] else none

/-- The operand items of a line after its mnemonic: none, or one or more items (R82). -/
def operandItems (text : List Char) : Option (List (List Byte)) :=
  if lineEnds text then some [] else items text.length text

/-- What a mnemonic and its items stand for: a command whose payload is the items joined, DERIVE with its `llen`
computed, or a pseudo-instruction's expansion (R82, R83). -/
def expansion (mnemonic : List Char) (operands : List (List Byte)) : Option (List Instr) :=
  let is (name : String) : Bool := mnemonic == name.toList
  if is "KEYLOAD" then some [.keyload operands.flatten]
  else if is "ENCBLK" then some [.encblk operands.flatten]
  else if is "DECBLK" then some [.decblk operands.flatten]
  else if is "SPINIT" then some [.spinit operands.flatten]
  else if is "STREAM" then some [.stream operands.flatten]
  else if is "MKLOAD" then some [.mkload operands.flatten]
  else if is "DKREAD" then some [.dkread operands.flatten]
  else if is "STATUS" then some [.status operands.flatten]
  else if is "ZEROIZE" then some [.zeroize operands.flatten]
  else if is "SENC" then some (senc operands.flatten)
  else if is "SDEC" then some (sdec operands.flatten)
  else match operands with
    | [label, context] =>
      if is "DERIVE" ∧ label.length < 256 then some [deriveOf label context] else none
    | [first, second, third] =>
      if is "ENCRYPT" then some (encryptMessage first second third)
      else if is "DECRYPT" then some (decryptMessage first second third)
      else if is "DERIVEKEY" ∧ second.length < 256 then some (deriveKeyMessage first second third)
      else none
    | _ => none

/-- The commands one line of a program stands for; an empty line or a comment stands for none (R82, R83). -/
def assembleLine (line : List Char) : Option (List Instr) :=
  if lineEnds line then some []
  else
    let text := skipSpaces line
    match operandItems (text.dropWhile Char.isUpper) with
    | some operands => expansion (text.takeWhile Char.isUpper) operands
    | none => none

/-- The name of a fault (R210). -/
def faultName : FaultCode → String
  | .invalidKeyLength => "InvalidKeyLength"
  | .invalidNonceLength => "InvalidNonceLength"
  | .malformedEncoding => "MalformedEncoding"
  | .ioFailure => "IOFailure"
  | .instanceReuseViolation => "InstanceReuseViolation"
  | .illegalCommand => "IllegalCommand"
  | .blockLengthViolation => "BlockLengthViolation"
  | .notConstructed => "NotConstructed"
  | .chunkTooLong => "ChunkTooLong"
  | .frameError => "FrameError"

/-- The two lower-case digits of a byte. -/
def hexPair (b : Byte) : List Char :=
  let digit (n : Nat) : Char := Char.ofNat (if n < 10 then 48 + n else 87 + n)
  [digit (b.toNat / 16), digit (b.toNat % 16)]

/-- A response as text: `-> OK`, `-> OK h'..'`, or `-> FAULT` and the name; `none` for a status byte the core never
produces (R82, R210). -/
def responseText (st : Byte) (rsp : List Byte) : Option (List Char) :=
  if st = 0x00 then
    if rsp = [] then some "-> OK".toList
    else some ("-> OK h'".toList ++ (rsp.map hexPair).flatten ++ ['\''])
  else
    ([.invalidKeyLength, .invalidNonceLength, .malformedEncoding, .ioFailure, .instanceReuseViolation,
      .illegalCommand, .blockLengthViolation, .notConstructed, .chunkTooLong, .frameError].find?
        fun f => faultCode f == st).map fun f => "-> FAULT ".toList ++ (faultName f).toList

end Sys2Proof.Machine
end

