-- ==== Sys2Proof/Tests/Slice0.lean ====
section
/-! SUPPORT. The model's own tests. Every expected value is one the spec prints (the rule or the section of
95_test_vectors stands beside the test). A test of a cipher value names the table it assumes, since `Config.sbox` is
open (R9). The second half holds, for each obligation with hypotheses, a concrete input that meets them. -/

namespace Sys2Proof.Tests

open Sys2Proof.Machine

-- One theorem after the other: kernel evaluations side by side take much memory.
set_option Elab.async false

/-! ### Small states and views -/

/-- `n` zero bytes. -/
def zeros (n : Nat) : List Byte := List.replicate n 0

/-- The key KINC of 95_test_vectors: byte `i` has value `i`. -/
def kinc : List Byte := (List.range 32).map (BitVec.ofNat 8)

/-- A key is loaded. -/
def keyed (key : List Byte) : State :=
  { State.reset with engine := { rk := expandKey (bufferOf 32 key), keyValid := true } }

/-- A processor is constructed over the all-zero key with the all-zero nonce; `closed` says whether its pass is. -/
def passing (closed : Bool) : State :=
  { keyed (zeros 32) with
    processor := { Processor.empty with spValid := true, spClosed := closed } }

/-- The all-zero master key is loaded. -/
def mastered : State := { State.reset with kds := { Kds.empty with mkValid := true } }

/-- A record is kept, with texts of the given lengths. -/
def recorded (dllen dclen : BitVec 7) : State :=
  { State.reset with kds := { Kds.empty with dkValid := true, dllen := dllen, dclen := dclen } }

/-- The machine with bytes waiting on the command port. -/
def waiting (bytes : List Byte) : State := { State.reset with rx := bytes }

/-- The next state of a result. -/
def nextOf : Result → Option State
  | .next t => some t
  | .fault _ => none
  | .refused _ => none

/-- The response bytes of a result. -/
def answer (r : Result) : List Byte := ((nextOf r).map State.tx).getD []

/-- The fault records of a result. -/
def recordsOf (r : Result) : Option FaultRecord := (nextOf r).map State.faults

/-! ### Well-formedness -/

theorem wellFormed_zeros (n : Nat) : (Instr.derive (zeros n)).WellFormed ↔ n < 65536 := by
  simp [Instr.WellFormed, Instr.wellFormed, Instr.payload, zeros]

theorem test_wellFormed_longest : (Instr.derive (zeros 65535)).WellFormed :=
  (wellFormed_zeros _).2 (by decide)

/-- The one check of `Instr.wellFormed` refuses a payload of 65536 bytes (R70). -/
theorem test_wellFormed_refuses : ¬ (Instr.derive (zeros 65536)).WellFormed :=
  fun h => absurd ((wellFormed_zeros _).1 h) (by decide)

/-! ### Decoding: frames written out from R71, R74, R75 and the programs of 95_test_vectors -/

theorem test_decode_keyload :
    decode ([0x01, 0x20, 0x00] ++ zeros 32 ++ [0x30]) = .command (.keyload (zeros 32)) [0x30] := by decide
theorem test_decode_encblk :
    decode [0x02, 0x08, 0x00, 0x10, 0x32, 0x54, 0x76, 0x98, 0xba, 0xdc, 0xfe] =
      .command (.encblk [0x10, 0x32, 0x54, 0x76, 0x98, 0xba, 0xdc, 0xfe]) [] := by decide
theorem test_decode_decblk : decode [0x03, 0x00, 0x00, 0xff] = .command (.decblk []) [0xff] := by decide
theorem test_decode_spinit :
    decode [0x10, 0x07, 0x00, 1, 2, 3, 4, 5, 6, 7] = .command (.spinit [1, 2, 3, 4, 5, 6, 7]) [] := by decide
theorem test_decode_stream :
    decode [0x11, 0x03, 0x00, 0x41, 0x42, 0x43, 0x11] = .command (.stream [0x41, 0x42, 0x43]) [0x11] := by decide
theorem test_decode_mkload :
    decode ([0x20, 0x20, 0x00] ++ zeros 32) = .command (.mkload (zeros 32)) [] := by decide
theorem test_decode_derive :
    decode [0x21, 0x03, 0x00, 0x01, 0x4c, 0x43] = .command (.derive [0x01, 0x4c, 0x43]) [] := by decide
theorem test_decode_dkread : decode [0x22, 0x01, 0x00, 0x00] = .command (.dkread [0x00]) [] := by decide
theorem test_decode_status : decode [0x30, 0x00, 0x00] = .command (.status []) [] := by decide
theorem test_decode_zeroize :
    decode [0x31, 0x02, 0x00, 0x00, 0x00] = .command (.zeroize [0x00, 0x00]) [] := by decide

/-- LEN is little-endian: `11 01 10` announces 4097 bytes (3.6), so three of them are no whole frame (R73). -/
theorem test_decode_hold : decode [0x11, 0x01, 0x10, 0x00, 0x00, 0x00] = .hold := by decide

/-- The opcodes next to each legal group are illegal (section 5). -/
theorem test_decode_illegal :
    ∀ opc ∈ ([0x00, 0x04, 0x0f, 0x12, 0x1f, 0x23, 0x2f, 0x32, 0x7f, 0x91, 0xff] : List Byte),
      decode [opc, 0x00, 0x00, 0x30] = .illegal opc [0x30] := by decide

/-- Exactly 246 opcode values are illegal (R78). -/
theorem test_illegal_count :
    ((List.range 256).filter fun n => (instrOf (BitVec.ofNat 8 n) []).isNone).length = 246 := by decide +kernel

/-- A table word of one byte is the opcode, with LEN = 0; a longer one holds LEN and payload. -/
theorem test_decodeTableWord :
    decodeTableWord 8 0x22 = some (.dkread []) ∧ decodeTableWord 32 0x7f000110 = some (.spinit [0x7f]) ∧
    decodeTableWord 8 0x04 = none := by decide

theorem test_withFetchWord :
    answer (step (State.reset.withFetchWord 8 0x30)) = [0x00, 0x04, 0x00, 0x00, 0x00, 0x00, 0x00] := by decide

/-! ### The engine's functions (95_test_vectors 2.1 to 2.4) -/

/-- Rows of 2.1: `T` under SBOX_Z, and `F` under both tables, with the carry lost and bits crossing the rotation. -/
theorem test_roundF :
    substitute sboxZ 0xfdb97531 = 0x2a196f34 ∧ substitute sboxZ 0x01234567 = 0x1efadf59 ∧
    roundF sboxZ 0xffffffff 0x00000001 = 0xbe5b60c2 ∧ roundF sboxZ 0xfedcba98 0x87654321 = 0xfdcbc20c ∧
    roundF sboxId 0x00200000 0 = 0x00000001 ∧ roundF sboxId 0x12345678 0x9abcdef0 = 0x89ab4567 := by decide

/-- `Expand(KINC)` of 2.2 at the ends of its four copies. -/
theorem test_expandKey :
    (expandKey (bufferOf 32 kinc))[0] = 0x03020100 ∧ (expandKey (bufferOf 32 kinc))[23] = 0x1f1e1d1c ∧
    (expandKey (bufferOf 32 kinc))[24] = 0x1f1e1d1c ∧ (expandKey (bufferOf 32 kinc))[31] = 0x03020100 := by
  decide +kernel

/-- The Magma vector of 2.4 under SBOX_Z. -/
theorem test_encryptBlock_magma :
    encryptBlock sboxZ (expandKey (bufferOf 32
      [0xcc, 0xdd, 0xee, 0xff, 0x88, 0x99, 0xaa, 0xbb, 0x44, 0x55, 0x66, 0x77, 0x00, 0x11, 0x22, 0x33,
       0xf3, 0xf2, 0xf1, 0xf0, 0xf7, 0xf6, 0xf5, 0xf4, 0xfb, 0xfa, 0xf9, 0xf8, 0xff, 0xfe, 0xfd, 0xfc]))
      #v[0x98, 0xba, 0xdc, 0xfe, 0x10, 0x32, 0x54, 0x76] =
    #v[0xe5, 0x01, 0xe9, 0x4e, 0x3d, 0xca, 0xd8, 0xc2] := by decide +kernel

/-- DecryptBlock of the same source under KINC and SBOX_Z (2.2): the schedule is not a palindrome. -/
theorem test_decryptBlock_kinc :
    decryptBlock sboxZ (expandKey (bufferOf 32 kinc)) #v[0x41, 0x42, 0x43, 0x44, 0x45, 0x46, 0x47, 0x48] =
    #v[0x58, 0x0a, 0x17, 0xd9, 0xd6, 0x36, 0x4a, 0x1f] := by decide +kernel

/-! ### The engine's commands -/

theorem test_keyload : answer (exec (.keyload kinc) State.reset) = [0x00, 0x00, 0x00] ∧
    (nextOf (exec (.keyload (zeros 32)) (passing true))).map State.processor = some Processor.empty := by
  decide +kernel

theorem test_keyload_31 : answer (exec (.keyload (zeros 31)) State.reset) = [0x01, 0x00, 0x00] ∧
    recordsOf (exec (.keyload (zeros 31)) State.reset) = some ⟨0x01, 0x0002⟩ := by decide +kernel

/-- P1, column SBOX_ID. -/
theorem test_encblk (h : Config.sbox = sboxId) :
    answer (exec (.encblk [0x10, 0x32, 0x54, 0x76, 0x98, 0xba, 0xdc, 0xfe]) (keyed kinc)) =
      [0x00, 0x08, 0x00, 0x70, 0x38, 0x1b, 0xc3, 0x24, 0xcb, 0x67, 0xbe] := by
  simp only [exec, execEncblk, h]
  decide +kernel

/-- 2.7: the order of the two faults. -/
theorem test_encblk_faults : answer (exec (.encblk (zeros 9)) State.reset) = [0x08, 0x00, 0x00] ∧
    answer (exec (.encblk (zeros 9)) (keyed (zeros 32))) = [0x07, 0x00, 0x00] := by decide +kernel

/-- P1, column SBOX_ID. -/
theorem test_decblk (h : Config.sbox = sboxId) :
    answer (exec (.decblk [0x70, 0x38, 0x1b, 0xc3, 0x24, 0xcb, 0x67, 0xbe]) (keyed kinc)) =
      [0x00, 0x08, 0x00, 0x10, 0x32, 0x54, 0x76, 0x98, 0xba, 0xdc, 0xfe] := by
  simp only [exec, execDecblk, h]
  decide +kernel

theorem test_decblk_faults : answer (exec (.decblk []) State.reset) = [0x08, 0x00, 0x00] ∧
    answer (exec (.decblk []) (keyed (zeros 32))) = [0x07, 0x00, 0x00] := by decide +kernel

/-! ### The stream processor (95_test_vectors 3.1, 3.2, 3.6) -/

theorem test_inc :
    inc #v[0xff, 0xff, 0xff, 0xff, 0, 0, 0, 0] = #v[0, 0, 0, 0, 1, 0, 0, 0] ∧
    inc #v[0xff, 0xff, 0xff, 0xff, 0xff, 0xff, 0xff, 0xff] = #v[0, 0, 0, 0, 0, 0, 0, 0] ∧
    inc #v[8, 7, 6, 5, 4, 3, 2, 1] = #v[9, 7, 6, 5, 4, 3, 2, 1] := by decide +kernel

/-- The KINC row of 3.2: AUX under SBOX_Z, CTR the nonce. -/
theorem test_spinit (h : Config.sbox = sboxZ) :
    (nextOf (exec (.spinit [1, 2, 3, 4, 5, 6, 7, 8]) (keyed kinc))).map State.processor =
      some { ctr := #v[1, 2, 3, 4, 5, 6, 7, 8], ks := #v[0, 0, 0, 0, 0, 0, 0, 0],
             aux := #v[0x8d, 0x0f, 0xa4, 0x29, 0x12, 0x37, 0x2c, 0xef], spValid := true, spClosed := false } := by
  simp only [exec, execSpinit, h]
  decide +kernel

theorem test_spinit_faults : answer (exec (.spinit (zeros 7)) State.reset) = [0x08, 0x00, 0x00] ∧
    answer (exec (.spinit (zeros 7)) (keyed (zeros 32))) = [0x02, 0x00, 0x00] := by decide +kernel

/-- Nine zero bytes under KZERO, nonce zero, SBOX_ID (3.2): the response, CTR after, the pass closed. -/
theorem test_stream (h : Config.sbox = sboxId) :
    let r := exec (.stream (zeros 9)) (passing false)
    answer r = [0x00, 0x09, 0x00, 0x00, 0x00, 0x20, 0x00, 0x01, 0x05, 0x11, 0x00, 0x00] ∧
    (nextOf r).map (fun t => (t.processor.ctr, t.processor.spClosed)) = some (#v[2, 0, 0, 0, 0, 0, 0, 0], true) := by
  simp only [exec, execStream, h]
  decide +kernel

/-- 3.6: reuse is reported before the length, and an empty chunk does not escape it. -/
theorem test_stream_faults : answer (exec (.stream []) State.reset) = [0x08, 0x00, 0x00] ∧
    answer (exec (.stream []) (passing true)) = [0x05, 0x00, 0x00] := by decide +kernel

/-! ### The hash primitives (R181) and the key derivation (95_test_vectors 4) -/

/-- HMAC of "Hi There" under twenty bytes 0b. -/
theorem test_hmacSha256 :
    hmacSha256 (List.replicate 20 0x0b) [0x48, 0x69, 0x20, 0x54, 0x68, 0x65, 0x72, 0x65] =
    [0xb0, 0x34, 0x4c, 0x61, 0xd8, 0xdb, 0x38, 0x53, 0x5c, 0xa8, 0xaf, 0xce, 0xaf, 0x0b, 0xf1, 0x2b,
     0x88, 0x1d, 0xc2, 0x00, 0xc9, 0x83, 0x3d, 0xa7, 0x26, 0xe9, 0x37, 0x6c, 0x2e, 0x32, 0xcf, 0xf7] := by
  decide +kernel

/-- PBKDF2 with password "password", salt "salt", two iterations. -/
theorem test_pbkdf2 :
    pbkdf2 [0x70, 0x61, 0x73, 0x73, 0x77, 0x6f, 0x72, 0x64] [0x73, 0x61, 0x6c, 0x74] 2 32 =
    [0xae, 0x4d, 0x0c, 0x95, 0xaf, 0x6b, 0x46, 0xd3, 0x2d, 0x0a, 0xdf, 0xf9, 0x28, 0xf0, 0x6d, 0xd0,
     0x2a, 0x30, 0x3f, 0x8e, 0xf3, 0xc2, 0x51, 0xdf, 0xd6, 0xe2, 0xd8, 0x5a, 0x95, 0x47, 0x4c, 0x43] := by
  decide +kernel

/-- `U_1` of 4.2: the HMAC of "test_label||test_context" and the block index under the all-zero master key. -/
theorem test_first_mac :
    hmacSha256 (zeros 32) (diversify [0x74, 0x65, 0x73, 0x74, 0x5f, 0x6c, 0x61, 0x62, 0x65, 0x6c]
      [0x74, 0x65, 0x73, 0x74, 0x5f, 0x63, 0x6f, 0x6e, 0x74, 0x65, 0x78, 0x74] ++ [0, 0, 0, 1]) =
    [0xe8, 0xa5, 0x10, 0x23, 0x45, 0xf5, 0xa6, 0xbe, 0x66, 0x90, 0x18, 0xf0, 0x01, 0x95, 0xab, 0x75,
     0x26, 0x2c, 0x44, 0x4c, 0x12, 0x8d, 0x27, 0x20, 0xb5, 0xe8, 0xdd, 0x96, 0x7e, 0x07, 0xb7, 0x78] := by
  decide +kernel

theorem test_mkload : answer (exec (.mkload kinc) State.reset) = [0x00, 0x00, 0x00] ∧
    (nextOf (exec (.mkload kinc) (recorded 1 2))).map (fun t => (t.kds.mk[31], t.kds.dllen, t.kds.dkValid)) =
      some (0x1f, 1, true) := by decide +kernel

theorem test_mkload_64 : answer (exec (.mkload (zeros 64)) State.reset) = [0x01, 0x00, 0x00] := by decide +kernel

/-- 4.5: no master key; no payload; `llen = 48` in four bytes. -/
theorem test_derive_faults : answer (exec (.derive [0x01, 0x4c, 0x43]) State.reset) = [0x08, 0x00, 0x00] ∧
    answer (exec (.derive []) mastered) = [0x0a, 0x00, 0x00] ∧
    answer (exec (.derive [0x30, 0x61, 0x62, 0x63]) mastered) = [0x0a, 0x00, 0x00] := by decide +kernel

/-- What is kept of the 70-byte label and 100-byte context of 4.3, whatever key comes out: 64 bytes each. -/
theorem test_derive_truncates :
    let pay : List Byte := 0x46 :: List.replicate 70 0x61 ++ List.replicate 100 0x30
    let t := effectOf (.derive pay) mastered
    t.kds.dllen = 64 ∧ t.kds.dclen = 64 ∧ t.kds.dlabel[63] = 0x61 ∧ t.kds.dcontext[63] = 0x30 := by decide +kernel

/-- The shortest record, 34 bytes (R153). -/
theorem test_dkread : answer (exec (.dkread []) (recorded 0 0)) = [0x00, 0x22, 0x00] ++ zeros 34 := by decide +kernel

/-- 4.5: NotConstructed comes before FrameError. -/
theorem test_dkread_faults : answer (exec (.dkread [0x00]) State.reset) = [0x08, 0x00, 0x00] ∧
    answer (exec (.dkread [0x00]) (recorded 0 0)) = [0x0a, 0x00, 0x00] := by decide +kernel

/-! ### Housekeeping (95_test_vectors 5, P4) -/

/-- FLAGS 0x07 and the records of P3: last fault 5, log 0x0124, low byte first. -/
theorem test_status : answer (exec (.status []) { passing true with faults := ⟨0x05, 0x0124⟩ }) =
    [0x00, 0x04, 0x00, 0x07, 0x05, 0x24, 0x01] := by decide +kernel

theorem test_status_payload : answer (exec (.status [0x00]) State.reset) = [0x0a, 0x00, 0x00] := by decide

/-- ZEROIZE leaves the reset state but for the records. -/
theorem test_zeroize : nextOf (exec (.zeroize []) { passing true with faults := ⟨0x05, 0x0124⟩ }) =
    some { State.reset with faults := ⟨0x05, 0x0124⟩, tx := [0x00, 0x00, 0x00] } := by decide +kernel

theorem test_zeroize_payload :
    (nextOf (exec (.zeroize [0x00, 0x00]) (passing true))).map State.processor = some (passing true).processor := by
  decide +kernel

/-! ### Fetch, faults and reset -/

theorem test_illegal_step : nextOf (step (waiting [0x7f, 0x03, 0x00, 0x61, 0x62, 0x63, 0x30])) =
    some { State.reset with rx := [0x30], faults := ⟨0x06, 0x0040⟩, tx := [0x06, 0x00, 0x00] } := by decide +kernel

theorem test_hold_step : nextOf (step (waiting [0x11, 0x02])) = some (waiting [0x11, 0x02]) := by decide +kernel

theorem test_reset_step : nextOf (step ((passing true).hostReset)) = some State.reset := by decide +kernel

/-- 4097 bytes are cut in a chunk of 4096 and one of 1 (3.4), and an empty message in none (R83). -/
theorem test_chunks : (chunks (zeros 4097)).map List.length = [4096, 1] ∧ chunks [] = [] := by decide +kernel

/-- The examples of R82, with a comment, a hex item and a response besides. -/
theorem test_assembleLine :
    (assembleLine "STREAM \"ABCDEFGH\" ; one chunk".toList).map (List.flatMap encode) =
      some [0x11, 0x08, 0x00, 0x41, 0x42, 0x43, 0x44, 0x45, 0x46, 0x47, 0x48] ∧
    (assembleLine "DERIVE \"L\", \"C\"".toList).map (List.flatMap encode) =
      some [0x21, 0x03, 0x00, 0x01, 0x4c, 0x43] ∧
    (assembleLine "STATUS".toList).map (List.flatMap encode) = some [0x30, 0x00, 0x00] ∧
    assembleLine "MKLOAD h'00 1f', h'Ff'".toList = some [.mkload [0x00, 0x1f, 0xff]] ∧
    assembleLine "JUMP h'00'".toList = none ∧
    responseText 0x08 [] = some "-> FAULT NotConstructed".toList ∧
    responseText 0x00 [0x0a, 0xe9] = some "-> OK h'0ae9'".toList := by decide +kernel

/-! ### Inputs that meet the hypotheses of the obligations, clause by clause, at the ends of their ranges -/

theorem zeros_length (n : Nat) : (zeros n).length = n := List.length_replicate

/-- Both sources of a state of `ResetPutsEveryRegisterToZero`, the second with registers to clear. -/
theorem witness_ResetPutsEveryRegisterToZero :
    State.reset = State.reset ∧ (passing true).hostReset.resetReq = true ∧
    (passing true).hostReset ≠ State.reset ∧ step (passing true).hostReset = .next State.reset :=
  ⟨rfl, rfl, by decide +kernel, rfl⟩

theorem witness_StepRunsTheDecodedCommand :
    (waiting [0x02, 0x01, 0x00, 0x41, 0x30]).resetReq = false ∧
    decode (waiting [0x02, 0x01, 0x00, 0x41, 0x30]).rx = .command (.encblk [0x41]) [0x30] := by decide

/-- No header, an unfinished header, a header without its payload, and the bytes that complete each. -/
theorem witness_IncompleteFrameHoldsUntilCompleted :
    (waiting []).resetReq = false ∧ (waiting []).rx.length < 3 ∧
    (waiting [0x11, 0x01]).rx.length < 3 ∧
    (waiting [0x11, 0x01, 0x00]).rx = 0x11 :: 0x01 :: 0x00 :: [] ∧
    ([] : List Byte).length < (0x01 : Byte).toNat + 256 * (0x00 : Byte).toNat ∧
    (Instr.stream [0x41]).WellFormed ∧
    (waiting []).rx ++ [0x11, 0x01, 0x00, 0x41] = encode (.stream [0x41]) ++ [] ∧
    (waiting [0x11, 0x01]).rx ++ [0x00, 0x41, 0x30] = encode (.stream [0x41]) ++ [0x30] ∧
    (waiting [0x11, 0x01, 0x00]).rx ++ [0x41] = encode (.stream [0x41]) ++ [] := by decide

theorem witness_IllegalOpcodeRaisesIllegalCommand :
    (∀ opc ∈ ([0x00, 0x04, 0x32, 0xff] : List Byte),
      opc ∉ ([0x01, 0x02, 0x03, 0x10, 0x11, 0x20, 0x21, 0x22, 0x30, 0x31] : List Byte)) ∧
    [0x61, 0x62, 0x63].length = (0x03 : Byte).toNat + 256 * (0x00 : Byte).toNat ∧
    (waiting [0xff, 0x03, 0x00, 0x61, 0x62, 0x63, 0x30]).rx = 0xff :: 0x03 :: 0x00 :: [0x61, 0x62, 0x63] ++ [0x30] ∧
    (waiting [0xff, 0x03, 0x00, 0x61, 0x62, 0x63, 0x30]).resetReq = false := by decide

theorem witness_DecodeInvertsEncode :
    (Instr.zeroize []).WellFormed ∧ (Instr.stream (zeros 1)).WellFormed ∧ (Instr.derive (zeros 65535)).WellFormed :=
  ⟨by decide, by decide, test_wellFormed_longest⟩

theorem witness_EncodeWritesTheCommandFrame :
    (Instr.status []).WellFormed ∧ (Instr.derive (zeros 65535)).WellFormed :=
  ⟨by decide, test_wellFormed_longest⟩

theorem witness_EncodeInvertsDecode :
    decode [0x22, 0x00, 0x00, 0x31] = .command (.dkread []) [0x31] := by decide

theorem witness_QueuedFramesRunInOrder :
    (∀ i ∈ ([.status [], .stream [0x41], .zeroize []] : List Instr), i.WellFormed) ∧
    (waiting [0x30, 0, 0, 0x11, 1, 0, 0x41, 0x31, 0, 0, 0x22]).resetReq = false ∧
    (waiting [0x30, 0, 0, 0x11, 1, 0, 0x41, 0x31, 0, 0, 0x22]).rx =
      ([.status [], .stream [0x41], .zeroize []] : List Instr).flatMap encode ++ [0x22] := by decide

/-- A hold and a whole frame, neither in reset. -/
theorem witness_EveryStepAnswersANextState :
    (waiting [0x30]).resetReq = false ∧ decode (waiting [0x30]).rx = .hold ∧
    (waiting [0x30, 0x00, 0x00]).resetReq = false ∧ decode (waiting [0x30, 0x00, 0x00]).rx ≠ .hold := by decide

/-- A step that raises a fault over a recorded one. -/
theorem witness_FaultRecordsAreSticky :
    ∃ s t : State, s.resetReq = false ∧ step s = .next t ∧ s.faults.lastFault ≠ 0 ∧ t.faults ≠ s.faults :=
  ⟨{ waiting [0x00, 0x00, 0x00] with faults := ⟨0x01, 0x0002⟩ }, _, rfl, rfl, by decide, by decide⟩

/-- Key lengths of both clauses. -/
theorem witness_KeyloadConstructsTheEngine :
    (zeros 0).length ≠ 32 ∧ (zeros 31).length ≠ 32 ∧ (zeros 33).length ≠ 32 ∧ (zeros 32).length = 32 := by decide

theorem witness_SubstitutionIsABijection : ∀ i, Function.Bijective (sboxId i) := fun _ => Function.bijective_id

theorem witness_FeistelRoundIsInvertible : feistelRound sboxId ⟨1, 0⟩ 0 = ⟨0, 1⟩ := by decide

/-- Both faults and the success. -/
theorem witness_EncblkEncryptsTheBlock :
    State.reset.engine.keyValid = false ∧ (keyed kinc).engine.keyValid = true ∧
    (zeros 7).length ≠ 8 ∧ (zeros 9).length ≠ 8 ∧ zeros 8 = [0, 0, 0, 0, 0, 0, 0, 0] := by decide

theorem witness_DecblkDecryptsTheBlock :
    State.reset.engine.keyValid = false ∧ (keyed kinc).engine.keyValid = true ∧
    (zeros 0).length ≠ 8 ∧ (zeros 16).length ≠ 8 ∧ zeros 8 = [0, 0, 0, 0, 0, 0, 0, 0] := by decide

theorem witness_PalindromicKeyMakesDecryptEncrypt :
    ∀ j : Fin 8, (expandKey (bufferOf 32 (zeros 32)))[j.val] = (expandKey (bufferOf 32 (zeros 32)))[7 - j.val] := by
  decide +kernel

theorem witness_SpinitConstructsTheProcessor :
    State.reset.engine.keyValid = false ∧ (keyed kinc).engine.keyValid = true ∧
    (zeros 7).length ≠ 8 ∧ (zeros 16).length ≠ 8 ∧ (zeros 8).length = 8 := by decide

/-- No processor, a closed pass, an open pass; lengths on both sides of CHUNK_MAX. -/
theorem witness_StreamMasksTheChunk :
    State.reset.processor.spValid = false ∧
    (passing true).processor.spValid = true ∧ (passing true).processor.spClosed = true ∧
    (passing false).processor.spValid = true ∧ (passing false).processor.spClosed = false ∧
    4096 < (zeros 4097).length ∧ (zeros 4096).length ≤ 4096 ∧ (zeros 4095).length ≤ 4096 ∧ (zeros 0).length ≤ 4096 := by
  simp only [zeros_length]
  decide

theorem witness_ZeroLengthChunkGeneratesNothing :
    (passing false).processor.spValid = true ∧ (passing false).processor.spClosed = false ∧
    State.reset.processor.spValid = false ∧
    (passing true).processor.spValid = true ∧ (passing true).processor.spClosed = true := by decide

/-- A pass of a full chunk, an empty one, a block, and five last bytes. -/
theorem witness_PassEqualsItsClosedForm :
    (keyed kinc).engine.keyValid = true ∧ (zeros 8).length = 8 ∧
    (∀ x ∈ [zeros 4096, zeros 0, zeros 8], x.length % 8 = 0 ∧ x.length ≤ 4096) ∧ (zeros 5).length ≤ 4096 := by
  refine ⟨rfl, zeros_length _, ?_, ?_⟩ <;> simp [zeros_length]

theorem witness_DecryptionRecoversTheMessage : kinc.length = 32 ∧ (zeros 8).length = 8 := by decide

theorem witness_FirstKeystreamBlocksDiffer :
    bufferOf 8 (zeros 8) ≠ bufferOf 8 [1, 0, 0, 0, 0, 0, 0, 0] := by decide +kernel

theorem witness_BitFlipsPassThroughUnnoticed :
    (passing false).processor.spValid = true ∧ (passing false).processor.spClosed = false ∧
    ([0x41, 0x42, 0x43] : List Byte).length ≤ 4096 ∧
    ([0x01, 0x00, 0x80] : List Byte).length = ([0x41, 0x42, 0x43] : List Byte).length := by decide

/-- On a closed pass: a command that keeps it, one that ends it, and a STREAM. -/
theorem witness_ClosedPassStaysClosed :
    (passing true).processor.spValid = true ∧ (passing true).processor.spClosed = true ∧
    (∃ t, exec (.status []) (passing true) = .next t) ∧ (∃ t, exec (.zeroize []) (passing true) = .next t) ∧
    (∃ t, exec (.stream [0x44]) (passing true) = .next t) :=
  ⟨rfl, rfl, ⟨_, rfl⟩, ⟨_, rfl⟩, ⟨_, rfl⟩⟩

theorem witness_KeyloadEndsThePass :
    (passing false).processor.spValid = true ∧ kinc.length = 32 ∧ (zeros 31).length ≠ 32 := by decide

theorem witness_MkloadReplacesTheMasterKey :
    (zeros 31).length ≠ 32 ∧ (zeros 64).length ≠ 32 ∧ kinc.length = 32 := by decide

/-- No master key; no payload; `llen` one past the payload; `llen` exactly the payload; an empty label and context. -/
theorem witness_DeriveStoresAndReturnsTheKey :
    State.reset.kds.mkValid = false ∧ mastered.kds.mkValid = true ∧
    (zeros 2).length < (0x03 : Byte).toNat ∧ (0x03 : Byte).toNat ≤ (zeros 3).length ∧
    (zeros 254).length < (0xff : Byte).toNat ∧ (0xff : Byte).toNat ≤ (zeros 255).length ∧
    (0x00 : Byte).toNat ≤ (zeros 0).length := by
  simp only [zeros_length]
  decide

/-- No record; a record with the shortest and the longest texts. -/
theorem witness_DkreadReturnsTheRecord :
    State.reset.kds.dkValid = false ∧ (recorded 0 64).kds.dkValid = true ∧ ([0x00] : List Byte) ≠ [] ∧
    (recorded 0 64).kds.dllen.toNat ≤ 64 ∧ (recorded 0 64).kds.dclen.toNat ≤ 64 := by decide

theorem witness_DeriveSeesOnlyTheFirst64Bytes :
    (zeros 255).length ≤ 255 ∧ (zeros 65).length ≤ 255 ∧ (zeros 0).length ≤ 255 := by
  simp only [zeros_length]
  decide

/-- The texts of 95_test_vectors 4.4 and the longest ones. -/
theorem witness_SeparatorInsideATextCollides :
    mastered.kds.mkValid = true ∧ ([0x61] : List Byte).length + 2 + ([0x62] : List Byte).length ≤ 64 ∧
    ([0x62] : List Byte).length + 2 + ([0x63] : List Byte).length ≤ 64 ∧
    (zeros 31).length + 2 + (zeros 31).length ≤ 64 := by decide

/-- The chain `U_1, U_2, ..` of PBKDF2, `U_0` standing for nothing. -/
def macs (mk : Key) (salt : List Byte) : Nat → List Byte
  | 0 => []
  | 1 => hmacSha256 mk.toList (salt ++ [0x00, 0x00, 0x00, 0x01])
  | j + 2 => hmacSha256 mk.toList (macs mk salt (j + 1))

theorem witness_DeriveKeyIsTheXorOfTenThousandMacs (mk : Key) (label context : List Byte) :
    macs mk (diversify label context) 1 = hmacSha256 mk.toList (diversify label context ++ [0x00, 0x00, 0x00, 0x01]) ∧
    ∀ j, macs mk (diversify label context) (j + 2) =
      hmacSha256 mk.toList (macs mk (diversify label context) (j + 1)) :=
  ⟨rfl, fun _ => rfl⟩

/-- The payloads of both clauses. -/
theorem witness_StatusReportsFlagsAndRecords : ([0x00] : List Byte) ≠ [] ∧ ([] : List Byte) = [] := by decide

theorem witness_ZeroizeErasesEverythingButTheRecords : ([0x00, 0x00] : List Byte) ≠ [] ∧ ([] : List Byte) = [] := by
  decide

/-- The first and the last word of each range. -/
theorem witness_MessageScheduleRecurrence : 0 < 16 ∧ 15 < 16 ∧ 0 < 48 ∧ 47 < 48 := by decide

/-- The smallest padding longer than none: a message of 54 bytes takes one zero byte (R174). -/
theorem witness_PaddingFillsTheLastBlock : (54 + 1 + 1 + 8) % 64 = 0 ∧ (54 + 1 + 0 + 8) % 64 ≠ 0 := by decide

/-- A state with a processor, a step from it that keeps it, and a step from it that closes its pass. -/
theorem witness_EveryStepKeepsTheInvariant :
    State.Inv (passing false) ∧ (∃ t, step { passing false with rx := [0x30, 0, 0] } = .next t) ∧
    (∃ t, step { passing false with rx := [0x11, 1, 0, 0x41] } = .next t) := by
  refine ⟨by decide +kernel, ⟨_, rfl⟩, ⟨_, rfl⟩⟩

/-- The state SPINIT leaves has a processor and its auxiliary value. -/
theorem witness_EveryStepKeepsTheAuxiliaryValue :
    let s := { keyed kinc with processor := constructProcessor Config.sbox (keyed kinc).engine.rk (bufferOf 8 (zeros 8)) }
    State.AuxInv s ∧ s.processor.spValid = true ∧ ∃ t, step s = .next t :=
  ⟨fun _ => rfl, rfl, ⟨_, rfl⟩⟩

/-- The record of an empty label and context under the all-zero master key. -/
theorem witness_EveryStepKeepsTheRecordTrue :
    let s := { mastered with kds := storeRecord (deriveKey mastered.kds.mk [] []) [] [] mastered.kds }
    s.RecordInv ∧ s.kds.dkValid = true ∧ ∃ t, step s = .next t := by
  refine ⟨fun _ => ⟨mastered.kds.mk, ?_⟩, rfl, ⟨_, rfl⟩⟩
  simp only [storeRecord, List.length_nil, BitVec.toNat_ofNat, Nat.zero_mod, List.take_zero]
  exact bufferOf_toList (by rw [deriveKey.eq_1, pbkdf2_one_block, pbkdf2Block_length])

/-- A command that changes each group it may write. -/
theorem witness_RegistersChangeOnlyByTheirWriters :
    (∃ t, exec (.zeroize []) (passing true) = .next t ∧ t.engine ≠ (passing true).engine ∧
      t.processor.spValid ≠ (passing true).processor.spValid ∧
      t.processor.spClosed ≠ (passing true).processor.spClosed) ∧
    (∃ t, exec (.mkload kinc) mastered = .next t ∧ t.kds.mk ≠ mastered.kds.mk) ∧
    (∃ t, exec (.zeroize []) (recorded 1 2) = .next t ∧ t.kds.dllen ≠ (recorded 1 2).kds.dllen) ∧
    (∃ t, exec (.status [0x00]) State.reset = .next t ∧ t.faults ≠ State.reset.faults) := by
  refine ⟨⟨_, rfl, ?_, ?_, ?_⟩, ⟨_, rfl, ?_⟩, ⟨_, rfl, ?_⟩, ⟨_, rfl, ?_⟩⟩ <;> decide +kernel

theorem witness_ReissuingACommandIsIdempotent :
    (∀ data, Instr.mkload kinc = .stream data → data = []) ∧
    (∀ data, Instr.stream [] = .stream data → data = []) ∧ (∃ t, exec (.mkload kinc) State.reset = .next t) :=
  ⟨fun _ h => by simp at h, fun _ h => by simpa using h.symm, ⟨_, rfl⟩⟩

theorem witness_KdsAndCipherAreIndependent :
    (∃ t, exec (.keyload kinc) mastered = .next t) ∧ opcodeOf (.keyload kinc) ∈ ([0x01, 0x02, 0x03, 0x10, 0x11] : List Byte) ∧
    (∃ t, exec (.dkread []) (recorded 1 2) = .next t) ∧ opcodeOf (.dkread []) ∈ ([0x20, 0x21, 0x22] : List Byte) :=
  ⟨⟨_, rfl⟩, by decide, ⟨_, rfl⟩, by decide⟩

/-- Two states that differ in every register whose valid bit is 0. -/
theorem witness_InvalidRegistersAreUnobservable :
    let s := { State.reset with
      engine := { rk := Vector.replicate 32 1, keyValid := false }
      processor := { Processor.empty with ctr := Vector.replicate 8 1 }
      kds := { Kds.empty with mk := Vector.replicate 32 1, dk := Vector.replicate 32 1, dllen := 5 } }
    (s.processor.spValid = true → s.engine.keyValid = true) ∧ s.AgreeOnValid State.reset ∧ s ≠ State.reset ∧
    (∃ t, step s = .next t) ∧ ∃ t, step State.reset = .next t := by
  refine ⟨by decide, ?_, by decide +kernel, ⟨_, rfl⟩, ⟨_, rfl⟩⟩
  simp [State.AgreeOnValid, State.reset, Engine.empty, Processor.empty, Kds.empty]

theorem witness_AuxAndOldKeystreamAreNeverRead : ∃ t, exec (.stream [0x41, 0x42]) (passing false) = .next t :=
  ⟨_, rfl⟩

end Sys2Proof.Tests
end

section
/-! PROOF. What one step can do to the registers, said once: which faults a command takes, what passing its checks
means, and the principle by which a property of the registers is kept by every step. -/

namespace Sys2Proof.Machine

/-! ### The faults a command raises and the valid bit it needs -/

/-- The codes the core raises itself: 3 and 4 belong to the host's adapters (R214, R215). -/
def FaultCode.Raised (f : FaultCode) : Prop := f ≠ .malformedEncoding ∧ f ≠ .ioFailure

theorem checksOf_raisable (i : Instr) (s : State) : ∀ c ∈ checksOf i s, c.2 ∈ raisable i := by
  cases i <;>
    simp [checksOf, raisable, checksKeyload, checksBlock, checksSpinit, checksStream, checksMkload, checksDerive,
      checksDkread, checksEmpty]

theorem firstFault_checksOf_raisable {i : Instr} {s : State} {f : FaultCode}
    (h : firstFault (checksOf i s) = some f) : f ∈ raisable i :=
  checksOf_raisable i s _ (firstFault_mem h)

theorem raised_of_mem_raisable {i : Instr} {f : FaultCode} (h : f ∈ raisable i) : f.Raised := by
  constructor <;> rintro rfl <;> cases i <;> simp [raisable] at h

/-- The valid bit of the object a command works on; true where R226 lists no state precondition. -/
def neededBit : Instr → State → Bool
  | .encblk _, s => s.engine.keyValid
  | .decblk _, s => s.engine.keyValid
  | .spinit _, s => s.engine.keyValid
  | .stream _, s => s.processor.spValid
  | .derive _, s => s.kds.mkValid
  | .dkread _, s => s.kds.dkValid
  | _, _ => true

theorem checksOf_neededBit (i : Instr) (s : State) :
    neededBit i s = true ∨ (!neededBit i s, FaultCode.notConstructed) ∈ checksOf i s := by
  cases i <;> simp [neededBit, checksOf, checksBlock, checksSpinit, checksStream, checksDerive, checksDkread]

/-- A command that succeeds found its object constructed (R224). -/
theorem neededBit_of_pass {i : Instr} {s : State} (h : firstFault (checksOf i s) = none) : neededBit i s = true := by
  rcases checksOf_neededBit i s with hbit | hmem
  · exact hbit
  · simpa using firstFault_eq_none.1 h _ hmem

/-! ### Inversion of a command and of a step -/

/-- What a command's next state can be: a fault of its list taken in the state it found, or its end. -/
theorem exec_next {i : Instr} {s t : State} (h : exec i s = .next t) :
    (∃ f ∈ raisable i, firstFault (checksOf i s) = some f ∧ t = raise f s) ∨
    (firstFault (checksOf i s) = none ∧ t = complete (responseOf i s) (effectOf i s)) := by
  rw [exec_eq_guarded] at h
  rcases guarded_next h with ⟨f, hf, rfl⟩ | hdone
  · exact .inl ⟨f, firstFault_checksOf_raisable hf, hf, rfl⟩
  · exact .inr hdone

theorem step_of_reset {s : State} (hr : s.resetReq = true) : step s = .next State.reset := by
  simp [step, hr, execReset]

theorem step_of_hold {s : State} (hr : s.resetReq = false) (hd : decode s.rx = .hold) : step s = .next s := by
  simp [step, hr, fetch, hd, execHold]

theorem step_of_illegal {s : State} {opc : Byte} {rest : List Byte} (hr : s.resetReq = false)
    (hd : decode s.rx = .illegal opc rest) : step s = .next (raise .illegalCommand (consume rest s)) := by
  simp [step, hr, fetch, hd, execIllegal]

theorem step_of_command {s : State} {i : Instr} {rest : List Byte} (hr : s.resetReq = false)
    (hd : decode s.rx = .command i rest) : step s = exec i (consume rest s) := by
  simp [step, hr, fetch, hd]

/-- A property that reset has, and that taking a frame off the port, a fault of the core and a successful command
keep, is kept by every step. -/
theorem step_preserves {P : State → Prop} (hreset : P State.reset)
    (hconsume : ∀ rest s, P s → P (consume rest s))
    (hraise : ∀ f s, FaultCode.Raised f → P s → P (raise f s))
    (hpass : ∀ i s, firstFault (checksOf i s) = none → P s → P (complete (responseOf i s) (effectOf i s)))
    {s t : State} (hs : P s) (h : step s = .next t) : P t := by
  rcases step_cases s with ⟨-, e⟩ | ⟨-, -, e⟩ | ⟨opc, rest, -, -, e⟩ | ⟨i, rest, -, -, e⟩
  · obtain rfl : State.reset = t := by simpa [e] using h
    exact hreset
  · obtain rfl : s = t := by simpa [e] using h
    exact hs
  · obtain rfl : raise .illegalCommand (consume rest s) = t := by simpa [e] using h
    exact hraise _ _ ⟨nofun, nofun⟩ (hconsume rest s hs)
  · rcases exec_next (e.symm.trans h) with ⟨f, hf, -, rfl⟩ | ⟨hnone, rfl⟩
    · exact hraise f _ (raised_of_mem_raisable hf) (hconsume rest s hs)
    · exact hpass i _ hnone (hconsume rest s hs)

/-! ### The registers a command leaves unchanged when it succeeds (R20, column "Written by") -/

theorem effectOf_engine {i : Instr} {s : State} (h : opcodeOf i ∉ ([0x01, 0x31] : List Byte)) :
    (effectOf i s).engine = s.engine := by
  cases i with
  | keyload | zeroize => simp [opcodeOf] at h
  | _ => rfl

theorem effectOf_processor {i : Instr} {s : State} (h : opcodeOf i ∉ ([0x11, 0x10, 0x01, 0x31] : List Byte)) :
    (effectOf i s).processor = s.processor := by
  cases i with
  | stream | spinit | keyload | zeroize => simp [opcodeOf] at h
  | _ => rfl

/-- STREAM writes neither AUX nor SP_VALID. -/
theorem effectOf_aux_spValid {i : Instr} {s : State} (h : opcodeOf i ∉ ([0x10, 0x01, 0x31] : List Byte)) :
    (effectOf i s).processor.aux = s.processor.aux ∧ (effectOf i s).processor.spValid = s.processor.spValid := by
  cases i with
  | spinit | keyload | zeroize => simp [opcodeOf] at h
  | stream data =>
    obtain ⟨haux, hvalid, -⟩ := streamBytes_keeps Config.sbox s.engine.rk data 0 s.processor
    exact ⟨haux, hvalid⟩
  | _ => exact ⟨rfl, rfl⟩

theorem effectOf_masterKey {i : Instr} {s : State} (h : opcodeOf i ∉ ([0x20, 0x31] : List Byte)) :
    (effectOf i s).kds.mk = s.kds.mk ∧ (effectOf i s).kds.mkValid = s.kds.mkValid := by
  cases i with
  | mkload | zeroize => simp [opcodeOf] at h
  | _ => exact ⟨rfl, rfl⟩

/-- MKLOAD writes the master key beside the record and keeps the record (R151). -/
theorem effectOf_record {i : Instr} {s : State} (h : opcodeOf i ∉ ([0x21, 0x31] : List Byte)) :
    (effectOf i s).kds.dk = s.kds.dk ∧ (effectOf i s).kds.dlabel = s.kds.dlabel ∧
    (effectOf i s).kds.dllen = s.kds.dllen ∧ (effectOf i s).kds.dcontext = s.kds.dcontext ∧
    (effectOf i s).kds.dclen = s.kds.dclen ∧ (effectOf i s).kds.dkValid = s.kds.dkValid := by
  cases i with
  | derive | zeroize => simp [opcodeOf] at h
  | _ => exact ⟨rfl, rfl, rfl, rfl, rfl, rfl⟩

end Sys2Proof.Machine
end

section
/-! PROOF. What every step keeps: the invariant of the registers, the meaning of AUX and of the record, and the fault
records (10_state sections 2 to 7). -/

namespace Sys2Proof.Machine

/-! ### The engine and the processor -/

/-- The schedule KEYLOAD writes has the layout of R21. -/
theorem expandKey_shape (key : Key) : ScheduleShape (expandKey key) := by
  intro j
  have hj := j.isLt
  have hcopy : ∀ n (hn : n < 24), n % 8 = j.val → (expandKey key)[n] = (expandKey key)[j.val] := by
    intro n hn hmod
    rw [expandKey_forward _ _ hn, expandKey_forward _ _ (by omega)]
    congr 2
    omega
  refine ⟨hcopy _ (by omega) (by omega), hcopy _ (by omega) (by omega), ?_⟩
  rw [expandKey_reverse _ _ (by omega) (by omega), expandKey_forward _ _ (by omega)]
  congr 2
  omega

theorem effectOf_engineInv {s : State} (i : Instr) (h : EngineInv s.engine) : EngineInv (effectOf i s).engine := by
  cases i with
  | keyload pay => exact ⟨fun _ => expandKey_shape _, nofun⟩
  | zeroize => exact ⟨nofun, fun _ => rfl⟩
  | _ => exact h

/-- SP_VALID implies KEY_VALID: a processor stands over a loaded key (R144). -/
def State.ProcessorKeyed (s : State) : Prop := s.processor.spValid = true → s.engine.keyValid = true

theorem effectOf_processorKeyed {i : Instr} {s : State} (hpass : firstFault (checksOf i s) = none)
    (h : s.ProcessorKeyed) : (effectOf i s).ProcessorKeyed := by
  have hbit := neededBit_of_pass hpass
  cases i with
  | keyload | zeroize => exact nofun
  | spinit => exact fun _ => hbit
  | stream => exact fun _ => h hbit
  | _ => exact h

theorem effectOf_processorInv {i : Instr} {s : State} (hpass : firstFault (checksOf i s) = none)
    (h : ProcessorInv s.engine s.processor) : ProcessorInv (effectOf i s).engine (effectOf i s).processor := by
  have hbit := neededBit_of_pass hpass
  obtain ⟨hkey, hkeeps⟩ := h
  refine ⟨effectOf_processorKeyed hpass hkey, ?_⟩
  cases i with
  | keyload | zeroize => exact ⟨nofun, fun _ => rfl⟩
  | spinit => exact ⟨fun _ => rfl, nofun⟩
  | stream data =>
    have hvalid : (effectOf (.stream data) s).processor.spValid = true :=
      (effectOf_aux_spValid (by simp [opcodeOf])).2.trans hbit
    exact ⟨fun _ => hvalid, fun hf => absurd (hvalid.symm.trans hf) nofun⟩
  | _ => exact hkeeps

theorem step_processorKeyed {s t : State} (hs : s.ProcessorKeyed) (h : step s = .next t) : t.ProcessorKeyed :=
  step_preserves (P := State.ProcessorKeyed) nofun (fun _ _ hs => hs) (fun _ _ _ hs => hs)
    (fun _ _ hpass hs => effectOf_processorKeyed hpass hs) hs h

/-! ### The record -/

theorem trunc64_length_le (text : List Byte) : (trunc64 text).length ≤ 64 := by
  rw [trunc64_length]
  omega

/-- The length of a kept text fits its 7-bit register (R31). -/
theorem keptLength_toNat {text : List Byte} (h : text.length ≤ 64) :
    (BitVec.ofNat 7 text.length).toNat = text.length := by
  rw [BitVec.toNat_ofNat, Nat.mod_eq_of_lt (by omega)]

theorem textInv_of_length_le {text : List Byte} (h : text.length ≤ 64) :
    TextInv (bufferOf 64 text) (BitVec.ofNat 7 text.length) := by
  rw [TextInv, keptLength_toNat h]
  exact ⟨h, fun i hi => bufferOf_zero hi i.isLt⟩

theorem keptText_read {text : List Byte} (h : text.length ≤ 64) :
    (bufferOf 64 text).toList.take (BitVec.ofNat 7 text.length).toNat = text := by
  rw [keptLength_toNat h, bufferOf_take h]

theorem textInv_empty : TextInv (Vector.replicate 64 0) 0 :=
  ⟨by decide, fun _ _ => Vector.getElem_replicate _⟩

theorem kdsInv_empty : KdsInv Kds.empty :=
  ⟨textInv_empty, textInv_empty, fun _ => rfl, fun _ => ⟨rfl, rfl, rfl⟩⟩

theorem effectOf_kdsInv {s : State} (i : Instr) (h : KdsInv s.kds) : KdsInv (effectOf i s).kds := by
  obtain ⟨hlabel, hcontext, hmk, hdk⟩ := h
  cases i with
  | mkload => exact ⟨hlabel, hcontext, nofun, hdk⟩
  | derive =>
    exact ⟨textInv_of_length_le (trunc64_length_le _), textInv_of_length_le (trunc64_length_le _), hmk, nofun⟩
  | zeroize => exact kdsInv_empty
  | _ => exact ⟨hlabel, hcontext, hmk, hdk⟩

theorem deriveKey_length (mk : Key) (label context : List Byte) : (deriveKey mk label context).length = 32 := by
  rw [deriveKey.eq_1, pbkdf2_one_block, pbkdf2Block_length]

/-- DERIVE keeps the texts it used beside the key they gave; MKLOAD moves neither (R151, R152). -/
theorem effectOf_recordInv {s : State} (i : Instr) (h : s.RecordInv) : (effectOf i s).RecordInv := by
  cases i with
  | derive pay =>
    intro _
    refine ⟨s.kds.mk, ?_⟩
    simp only [effectOf, storeRecord]
    rw [keptText_read (trunc64_length_le _), keptText_read (trunc64_length_le _),
      bufferOf_toList (deriveKey_length _ _ _)]
  | zeroize => exact nofun
  | _ => exact h

/-! ### The auxiliary value -/

/-- AUX and the engine under it are written together, or the processor ends (R27). -/
theorem effectOf_auxInv {s : State} (i : Instr) (h : s.AuxInv) : (effectOf i s).AuxInv := by
  cases i with
  | keyload | zeroize => exact nofun
  | spinit => exact fun _ => rfl
  | stream data =>
    obtain ⟨haux, hvalid⟩ := effectOf_aux_spValid (i := .stream data) (s := s) (by simp [opcodeOf])
    exact fun hv => haux.trans (h (hvalid.symm.trans hv))
  | _ => exact h

/-! ### The fault records -/

theorem faultCode_ne_zero (f : FaultCode) : faultCode f ≠ 0 := by
  cases f <;> decide

theorem faultBit_getLsbD (f : FaultCode) : (faultBit f).getLsbD (faultCode f).toNat = true := by
  cases f <;> decide

/-- The bit of a fault the core raises is among bits 1, 2 and 5 to 10 (R210). -/
theorem faultBit_raised {f : FaultCode} (h : f.Raised) : faultBit f &&& ~~~(0x07E6 : BitVec 16) = 0 := by
  obtain ⟨hencoding, hio⟩ := h
  cases f with
  | malformedEncoding => exact absurd rfl hencoding
  | ioFailure => exact absurd rfl hio
  | _ => decide

theorem recordFault_faultInv {f : FaultCode} {r : FaultRecord} (hf : f.Raised) (h : FaultInv r) :
    FaultInv (recordFault f r) := by
  refine ⟨?_, fun hz => absurd hz (faultCode_ne_zero f), fun _ => ?_⟩
  · rw [recordFault_faultLog, BitVec.and_or_distrib_right, h.1, faultBit_raised hf, BitVec.or_self]
  · rw [recordFault_faultLog, recordFault_lastFault, BitVec.getLsbD_or, faultBit_getLsbD, Bool.or_true]

/-- `r` holds every bit that `q` has recorded, and a fault if `q` does (R34, R35). -/
def FaultRecord.Extends (r q : FaultRecord) : Prop :=
  q.faultLog &&& r.faultLog = q.faultLog ∧ (q.lastFault ≠ 0 → r.lastFault ≠ 0)

theorem FaultRecord.extends_refl (r : FaultRecord) : r.Extends r := ⟨BitVec.and_self, id⟩

theorem recordFault_extends (f : FaultCode) (r : FaultRecord) : (recordFault f r).Extends r := by
  refine ⟨?_, fun _ => faultCode_ne_zero f⟩
  rw [recordFault_faultLog]
  ext i
  simp +contextual

/-- Outside reset a step leaves the fault records or records one fault. -/
theorem step_faults {s t : State} (hr : s.resetReq = false) (h : step s = .next t) :
    t.faults = s.faults ∨ ∃ f, t.faults = recordFault f s.faults := by
  rcases step_cases s with ⟨hr', -⟩ | ⟨-, -, e⟩ | ⟨opc, rest, -, -, e⟩ | ⟨i, rest, -, -, e⟩
  · exact absurd (hr.symm.trans hr') nofun
  · obtain rfl : s = t := by simpa [e] using h
    exact .inl rfl
  · obtain rfl : raise .illegalCommand (consume rest s) = t := by simpa [e] using h
    exact .inr ⟨_, rfl⟩
  · rcases exec_next (e.symm.trans h) with ⟨f, -, -, rfl⟩ | ⟨-, rfl⟩
    · exact .inr ⟨f, rfl⟩
    · exact .inl (by simp)

/-! ### Reset -/

theorem inv_reset : State.reset.Inv :=
  ⟨⟨nofun, fun _ => rfl⟩, ⟨nofun, nofun, fun _ => rfl⟩, kdsInv_empty, ⟨by decide, fun _ => rfl, fun h => absurd rfl h⟩⟩

/-! ### The obligations about what every step keeps -/

/-- Settles O48: each group's part of the invariant is kept by a successful command; a fault of the core writes only
the fault records. -/
theorem everyStepKeepsTheInvariant : Obligations.EveryStepKeepsTheInvariant := by
  unfold Obligations.EveryStepKeepsTheInvariant
  intro s t hs h
  refine step_preserves (P := State.Inv) inv_reset (fun _ _ hs => hs) ?_ ?_ hs h
  · rintro f s hf ⟨hengine, hprocessor, hkds, hfaults⟩
    exact ⟨hengine, hprocessor, hkds, recordFault_faultInv hf hfaults⟩
  · rintro i s hpass ⟨hengine, hprocessor, hkds, hfaults⟩
    exact ⟨effectOf_engineInv i hengine, effectOf_processorInv hpass hprocessor, effectOf_kdsInv i hkds,
      by simpa using hfaults⟩

/-- Settles O14: recording a fault only adds a bit, and no fault has code 0. -/
theorem faultRecordsAreSticky : Obligations.FaultRecordsAreSticky := by
  unfold Obligations.FaultRecordsAreSticky
  intro s t hr h
  change t.faults.Extends s.faults
  rcases step_faults hr h with e | ⟨f, e⟩
  · exact e ▸ FaultRecord.extends_refl _
  · exact e ▸ recordFault_extends f _

/-- Settles O49: only SPINIT writes AUX, from the engine in RK, and a new engine ends the processor. -/
theorem everyStepKeepsTheAuxiliaryValue : Obligations.EveryStepKeepsTheAuxiliaryValue := by
  unfold Obligations.EveryStepKeepsTheAuxiliaryValue
  intro s t hs h
  exact step_preserves (P := State.AuxInv) nofun (fun _ _ hs => hs) (fun _ _ _ hs => hs)
    (fun i _ _ hs => effectOf_auxInv i hs) hs h

/-- Settles O50: DERIVE writes the key and its texts together, and no other command writes one of them alone. -/
theorem everyStepKeepsTheRecordTrue : Obligations.EveryStepKeepsTheRecordTrue := by
  unfold Obligations.EveryStepKeepsTheRecordTrue
  intro s t hs h
  exact step_preserves (P := State.RecordInv) nofun (fun _ _ hs => hs) (fun _ _ _ hs => hs)
    (fun i _ _ hs => effectOf_recordInv i hs) hs h

/-- Settles O1: the reset event leads to `State.reset` and nowhere else. -/
theorem resetPutsEveryRegisterToZero : Obligations.ResetPutsEveryRegisterToZero := by
  unfold Obligations.ResetPutsEveryRegisterToZero
  intro s hs
  obtain rfl : s = State.reset := by
    rcases hs with e | ⟨r, hr, h⟩
    · exact e
    · simpa [step_of_reset hr] using h.symm
  simp [State.reset, Engine.empty, Processor.empty, Kds.empty, FaultRecord.none]

/-- Settles O47: at reset every group is empty. -/
theorem invariantHoldsAtReset : Obligations.InvariantHoldsAtReset := inv_reset

end Sys2Proof.Machine
end

section
/-! PROOF. What the commands do not do: write a register that is not theirs, reopen a closed pass, or read what a
register holds behind a clear valid bit, in AUX or in an old keystream block (10_state R20, R25, R26, R28, R41). -/

namespace Sys2Proof.Machine

/-! ### Writers and the closed pass -/

/-- STREAM on a closed pass fails its second check (R134, R213). -/
theorem firstFault_stream_closed {s : State} (data : List Byte) (hvalid : s.processor.spValid = true)
    (hclosed : s.processor.spClosed = true) :
    firstFault (checksOf (.stream data) s) = some .instanceReuseViolation := by
  simp [checksOf, checksStream, hvalid, hclosed]

/-- Settles O33: STREAM, the one further writer of the group, never passes its checks on a closed pass. -/
theorem closedPassStaysClosed : Obligations.ClosedPassStaysClosed := by
  unfold Obligations.ClosedPassStaysClosed
  intro s t i hvalid hclosed h
  rcases exec_next h with ⟨f, -, hf, rfl⟩ | ⟨hpass, rfl⟩
  · refine ⟨.inl rfl, ?_⟩
    rintro data rfl
    rw [firstFault_stream_closed data hvalid hclosed, Option.some.injEq] at hf
    rw [hf]
  · have hstream : ∀ data, i ≠ .stream data := by
      rintro data rfl
      rw [firstFault_stream_closed data hvalid hclosed] at hpass
      exact absurd hpass nofun
    refine ⟨?_, fun data e => absurd e (hstream data)⟩
    cases i with
    | stream data => exact absurd rfl (hstream data)
    | keyload | spinit | zeroize => exact .inr (by simp [opcodeOf])
    | _ => exact .inl rfl

/-- Settles O51: a fault writes only the fault records, and a successful command only the registers that name it. -/
theorem registersChangeOnlyByTheirWriters : Obligations.RegistersChangeOnlyByTheirWriters := by
  unfold Obligations.RegistersChangeOnlyByTheirWriters
  intro i s t h
  rcases exec_next h with ⟨f, hf, -, rfl⟩ | ⟨-, rfl⟩
  · simpa using fun _ => ⟨f, hf, rfl⟩
  · simp only [complete_engine, complete_processor, complete_kds, complete_faults, effectOf_faults]
    refine ⟨?_, ?_, ?_, ?_, ?_, ?_, ?_, ?_, fun hne => absurd rfl hne⟩ <;> contrapose! <;> intro hop
    · exact effectOf_engine hop
    · rw [effectOf_processor (by simpa [and_left_comm] using hop)]
    · rw [effectOf_processor hop]
    · exact (effectOf_aux_spValid hop).1
    · exact (effectOf_aux_spValid hop).2
    · rw [effectOf_processor hop]
    · exact effectOf_masterKey hop
    · exact effectOf_record hop

/-! ### The valid and closed bits decide every check -/

/-- The two states have the same valid and closed bits. -/
structure State.SameBits (s t : State) : Prop where
  keyValid : s.engine.keyValid = t.engine.keyValid
  spValid : s.processor.spValid = t.processor.spValid
  spClosed : s.processor.spClosed = t.processor.spClosed
  mkValid : s.kds.mkValid = t.kds.mkValid
  dkValid : s.kds.dkValid = t.kds.dkValid

theorem State.SameBits.checksOf_eq {s t : State} (h : s.SameBits t) (i : Instr) : checksOf i s = checksOf i t := by
  obtain ⟨hkey, hsp, hclosed, hmk, hdk⟩ := h
  cases i <;> simp only [checksOf, checksBlock, checksSpinit, checksStream, checksDerive, checksDkread, *]

theorem State.SameBits.flagsByte_eq {s t : State} (h : s.SameBits t) : flagsByte s = flagsByte t := by
  obtain ⟨hkey, hsp, hclosed, hmk, hdk⟩ := h
  simp only [flagsByte, *]

theorem State.SameBits.statusBytes_eq {s t : State} (h : s.SameBits t) (hf : s.faults = t.faults) :
    statusBytes s = statusBytes t := by
  simp only [statusBytes, h.flagsByte_eq, hf]

/-! ### The byte loop reads KS only after it has rewritten it -/

/-- From a block boundary the loop's output and counter do not depend on KS, and never on AUX or the two bits (R135). -/
theorem streamBytes_congr (S : SBox) (rk : Schedule) (pay : List Byte) (i : Nat) {p q : Processor}
    (hctr : p.ctr = q.ctr) (hks : i % 8 ≠ 0 → p.ks = q.ks) :
    (streamBytes S rk i pay p).2 = (streamBytes S rk i pay q).2 ∧
    (streamBytes S rk i pay p).1.ctr = (streamBytes S rk i pay q).1.ctr := by
  induction pay generalizing i p q with
  | nil => exact ⟨rfl, hctr⟩
  | cons x xs ih =>
    simp only [streamBytes]
    split
    · have hnext : (nextKeystreamBlock S rk p).ks = (nextKeystreamBlock S rk q).ks := by simp [hctr]
      obtain ⟨hout, hctr'⟩ := ih (i + 1) (p := nextKeystreamBlock S rk p) (q := nextKeystreamBlock S rk q)
        (by simp [hctr]) (fun _ => hnext)
      simp only [hnext, hout, hctr', and_self]
    · next hi =>
      obtain ⟨hout, hctr'⟩ := ih (i + 1) hctr (fun _ => hks hi)
      simp only [hks hi, hout, hctr', and_self]

/-! ### AUX and the old keystream block -/

/-- `p` with other contents of AUX and KS. -/
def Processor.withAuxKs (aux ks : Block) (p : Processor) : Processor := { p with aux := aux, ks := ks }

/-- `s` with other contents of AUX and KS. -/
def State.withAuxKs (aux ks : Block) (s : State) : State := { s with processor := s.processor.withAuxKs aux ks }

/-- Processors that differ in AUX and KS only. -/
theorem Processor.eq_withAuxKs {p q : Processor} (hctr : p.ctr = q.ctr) (hvalid : p.spValid = q.spValid)
    (hclosed : p.spClosed = q.spClosed) : p = q.withAuxKs p.aux p.ks := by
  cases p
  simp_all only [withAuxKs]

/-- Other contents of AUX and KS change nothing that STREAM answers and no other register it leaves. -/
theorem streamBytes_withAuxKs (S : SBox) (rk : Schedule) (pay : List Byte) (aux ks : Block) (p : Processor) :
    (streamBytes S rk 0 pay (p.withAuxKs aux ks)).2 = (streamBytes S rk 0 pay p).2 ∧
    ∃ aux' ks', (streamBytes S rk 0 pay (p.withAuxKs aux ks)).1 = (streamBytes S rk 0 pay p).1.withAuxKs aux' ks' := by
  obtain ⟨hout, hctr⟩ := streamBytes_congr S rk pay 0 (p := p.withAuxKs aux ks) (q := p) rfl (absurd rfl)
  obtain ⟨-, hvalid, hclosed⟩ := streamBytes_keeps S rk pay 0 p
  obtain ⟨-, hvalid', hclosed'⟩ := streamBytes_keeps S rk pay 0 (p.withAuxKs aux ks)
  exact ⟨hout, _, _, Processor.eq_withAuxKs hctr (hvalid'.trans hvalid.symm) (hclosed'.trans hclosed.symm)⟩

theorem withAuxKs_sameBits (aux ks : Block) (s : State) : (s.withAuxKs aux ks).SameBits s :=
  ⟨rfl, rfl, rfl, rfl, rfl⟩

theorem complete_withAuxKs (rsp : List Byte) (aux ks : Block) (s : State) :
    complete rsp (s.withAuxKs aux ks) = (complete rsp s).withAuxKs aux ks := rfl

theorem responseOf_withAuxKs (i : Instr) (aux ks : Block) (s : State) :
    responseOf i (s.withAuxKs aux ks) = responseOf i s := by
  cases i with
  | stream data => exact (streamBytes_withAuxKs Config.sbox s.engine.rk data aux ks s.processor).1
  | _ => rfl

theorem effectOf_withAuxKs (i : Instr) (aux ks : Block) (s : State) :
    ∃ aux' ks', effectOf i (s.withAuxKs aux ks) = (effectOf i s).withAuxKs aux' ks' := by
  cases i with
  | keyload | zeroize | spinit => exact ⟨_, _, rfl⟩
  | stream data =>
    obtain ⟨-, aux', ks', e⟩ := streamBytes_withAuxKs Config.sbox s.engine.rk data aux ks s.processor
    exact ⟨aux', ks', congrArg (fun p => { s with processor := closeIfShort data.length p }) e⟩
  | _ => exact ⟨aux, ks, rfl⟩

/-- Settles O55: no check and no response reads AUX, and STREAM rewrites KS before it reads it. -/
theorem auxAndOldKeystreamAreNeverRead : Obligations.AuxAndOldKeystreamAreNeverRead := by
  unfold Obligations.AuxAndOldKeystreamAreNeverRead
  intro i s t aux ks h
  change ∃ aux' ks', exec i (s.withAuxKs aux ks) = .next (t.withAuxKs aux' ks')
  rw [exec_eq_guarded, (withAuxKs_sameBits aux ks s).checksOf_eq]
  rcases exec_next h with ⟨f, -, hf, rfl⟩ | ⟨hpass, rfl⟩
  · exact ⟨aux, ks, guarded_fault hf _ _⟩
  · obtain ⟨aux', ks', he⟩ := effectOf_withAuxKs i aux ks s
    refine ⟨aux', ks', ?_⟩
    rw [guarded_pass hpass, responseOf_withAuxKs, he, complete_withAuxKs]

/-! ### Registers behind a clear valid bit -/

/-- Engines that agree on KEY_VALID, and on the schedule while it is 1. -/
def Engine.AgreeOnValid (e f : Engine) : Prop := e.keyValid = f.keyValid ∧ (e.keyValid = true → e.rk = f.rk)

/-- Processors that agree on their two bits, and on the counter while SP_VALID is 1. -/
def Processor.AgreeOnValid (p q : Processor) : Prop :=
  p.spValid = q.spValid ∧ p.spClosed = q.spClosed ∧ (p.spValid = true → p.ctr = q.ctr)

/-- KDS groups that agree on their two valid bits, and on the master key and the record while each is valid. -/
def Kds.AgreeOnValid (k l : Kds) : Prop :=
  k.mkValid = l.mkValid ∧ (k.mkValid = true → k.mk = l.mk) ∧ k.dkValid = l.dkValid ∧
  (k.dkValid = true →
    k.dk = l.dk ∧ k.dllen = l.dllen ∧ k.dlabel = l.dlabel ∧ k.dclen = l.dclen ∧ k.dcontext = l.dcontext)

/-- Agreement of two states is agreement of each group, of the records and of the ports. -/
theorem agreeOnValid_iff {s t : State} : s.AgreeOnValid t ↔
    s.engine.AgreeOnValid t.engine ∧ s.processor.AgreeOnValid t.processor ∧ s.kds.AgreeOnValid t.kds ∧
    s.faults = t.faults ∧ s.resetReq = t.resetReq ∧ s.rx = t.rx ∧ s.tx = t.tx := by
  simp only [State.AgreeOnValid, Engine.AgreeOnValid, Processor.AgreeOnValid, Kds.AgreeOnValid, and_assoc]

theorem agreeOnValid_refl (s : State) : s.AgreeOnValid s := by
  simp [State.AgreeOnValid]

section
variable {s t : State} (h : s.AgreeOnValid t)
include h

theorem State.AgreeOnValid.sameBits : s.SameBits t := by
  obtain ⟨⟨hkey, -⟩, ⟨hsp, hclosed, -⟩, ⟨hmk, -, hdk, -⟩, -⟩ := agreeOnValid_iff.1 h
  exact ⟨hkey, hsp, hclosed, hmk, hdk⟩

theorem State.AgreeOnValid.consume (rest : List Byte) :
    (Machine.consume rest s).AgreeOnValid (Machine.consume rest t) := by
  obtain ⟨he, hp, hk, hf, hr, -, htx⟩ := agreeOnValid_iff.1 h
  exact agreeOnValid_iff.2 ⟨he, hp, hk, hf, hr, rfl, htx⟩

theorem State.AgreeOnValid.raise (f : FaultCode) : (Machine.raise f s).AgreeOnValid (Machine.raise f t) := by
  obtain ⟨he, hp, hk, hf, hr, hrx, htx⟩ := agreeOnValid_iff.1 h
  exact agreeOnValid_iff.2 ⟨he, hp, hk, by simp [hf], hr, hrx, by simp [htx]⟩

theorem State.AgreeOnValid.complete (rsp : List Byte) :
    (Machine.complete rsp s).AgreeOnValid (Machine.complete rsp t) := by
  obtain ⟨he, hp, hk, hf, hr, hrx, htx⟩ := agreeOnValid_iff.1 h
  exact agreeOnValid_iff.2 ⟨he, hp, hk, hf, hr, hrx, by simp [htx]⟩

/-- A command that passes its checks answers alike: it reads the object it needs, and that one is valid. -/
theorem State.AgreeOnValid.responseOf_eq (hsp : s.ProcessorKeyed) {i : Instr}
    (hpass : firstFault (checksOf i s) = none) : responseOf i s = responseOf i t := by
  have hbit := neededBit_of_pass hpass
  obtain ⟨⟨-, hrk⟩, ⟨-, -, hctr⟩, ⟨-, hmk, -, hrecord⟩, hf, -⟩ := agreeOnValid_iff.1 h
  cases i with
  | keyload | spinit | mkload | zeroize => rfl
  | encblk | decblk => simp only [responseOf, hrk hbit]
  | stream data =>
    simp only [responseOf, hrk (hsp hbit)]
    exact (streamBytes_congr _ _ data 0 (hctr hbit) (absurd rfl)).1
  | derive => simp only [responseOf, hmk hbit]
  | dkread =>
    obtain ⟨hdk, hdllen, hdlabel, hdclen, hdcontext⟩ := hrecord hbit
    simp only [responseOf, recordBytes, hdk, hdllen, hdlabel, hdclen, hdcontext]
  | status => exact h.sameBits.statusBytes_eq hf

theorem State.AgreeOnValid.effectOf_engine (i : Instr) :
    (effectOf i s).engine.AgreeOnValid (effectOf i t).engine := by
  obtain ⟨he, -⟩ := agreeOnValid_iff.1 h
  cases i with
  | keyload | zeroize => exact ⟨rfl, fun _ => rfl⟩
  | _ => exact he

theorem State.AgreeOnValid.effectOf_processor (hsp : s.ProcessorKeyed)
    {i : Instr} (hpass : firstFault (checksOf i s) = none) :
    (effectOf i s).processor.AgreeOnValid (effectOf i t).processor := by
  have hbit := neededBit_of_pass hpass
  obtain ⟨⟨-, hrk⟩, hp, -⟩ := agreeOnValid_iff.1 h
  cases i with
  | keyload | zeroize | spinit => exact ⟨rfl, rfl, fun _ => rfl⟩
  | stream data =>
    obtain ⟨hvalid, hclosed, hctr⟩ := hp
    obtain ⟨-, hctr'⟩ := streamBytes_congr Config.sbox t.engine.rk data 0 (hctr hbit) (absurd rfl)
    simp only [effectOf, Processor.AgreeOnValid, closeIfShort_spValid, closeIfShort_spClosed, closeIfShort_ctr,
      hrk (hsp hbit), streamBytes_keeps, hvalid, hclosed, hctr', implies_true, and_self]
  | _ => exact hp

theorem State.AgreeOnValid.effectOf_kds {i : Instr} (hpass : firstFault (checksOf i s) = none) :
    (effectOf i s).kds.AgreeOnValid (effectOf i t).kds := by
  have hbit := neededBit_of_pass hpass
  obtain ⟨-, -, hk, -⟩ := agreeOnValid_iff.1 h
  obtain ⟨hmkValid, hmk, hdkValid, hrecord⟩ := hk
  cases i with
  | mkload => exact ⟨rfl, fun _ => rfl, hdkValid, hrecord⟩
  | derive =>
    refine ⟨hmkValid, hmk, rfl, fun _ => ⟨?_, rfl, rfl, rfl, rfl⟩⟩
    simp only [effectOf, storeRecord, hmk hbit]
  | zeroize => exact ⟨rfl, fun _ => rfl, rfl, fun _ => ⟨rfl, rfl, rfl, rfl, rfl⟩⟩
  | _ => exact ⟨hmkValid, hmk, hdkValid, hrecord⟩

theorem State.AgreeOnValid.effectOf (hsp : s.ProcessorKeyed) {i : Instr}
    (hpass : firstFault (checksOf i s) = none) : (effectOf i s).AgreeOnValid (effectOf i t) := by
  obtain ⟨-, -, -, hf, hr, hrx, htx⟩ := agreeOnValid_iff.1 h
  exact agreeOnValid_iff.2 ⟨h.effectOf_engine i, h.effectOf_processor hsp hpass, h.effectOf_kds hpass,
    by simpa using hf, by simpa using hr, by simpa using hrx, by simpa using htx⟩

/-- A command run in two states that agree leaves two states that agree. -/
theorem State.AgreeOnValid.exec (hsp : s.ProcessorKeyed) {i : Instr}
    {s' t' : State} (hs : exec i s = .next s') (ht : exec i t = .next t') : s'.AgreeOnValid t' := by
  rw [exec_eq_guarded, ← h.sameBits.checksOf_eq] at ht
  rcases exec_next hs with ⟨f, -, hf, rfl⟩ | ⟨hpass, rfl⟩
  · obtain rfl : Machine.raise f t = t' := by simpa [guarded_fault hf] using ht
    exact h.raise f
  · obtain rfl : Machine.complete (responseOf i t) (Machine.effectOf i t) = t' := by
      simpa [guarded_pass hpass] using ht
    rw [h.responseOf_eq hsp hpass]
    exact (h.effectOf hsp hpass).complete _

/-- Two states that agree fetch the same frame, so both step alike. -/
theorem State.AgreeOnValid.step (hsp : s.ProcessorKeyed) {s' t' : State}
    (hs : step s = .next s') (ht : step t = .next t') : s'.AgreeOnValid t' := by
  obtain ⟨-, -, -, -, hr, hrx, -⟩ := agreeOnValid_iff.1 h
  cases hreset : s.resetReq with
  | true =>
    rw [step_of_reset hreset, Host.Outcome.next.injEq] at hs
    rw [step_of_reset (hr ▸ hreset), Host.Outcome.next.injEq] at ht
    exact hs ▸ ht ▸ agreeOnValid_refl _
  | false =>
    have hreset' : t.resetReq = false := hr ▸ hreset
    cases hd : decode s.rx with
    | hold =>
      rw [step_of_hold hreset hd, Host.Outcome.next.injEq] at hs
      rw [step_of_hold hreset' (hrx ▸ hd), Host.Outcome.next.injEq] at ht
      exact hs ▸ ht ▸ h
    | illegal opc rest =>
      rw [step_of_illegal hreset hd, Host.Outcome.next.injEq] at hs
      rw [step_of_illegal hreset' (hrx ▸ hd), Host.Outcome.next.injEq] at ht
      exact hs ▸ ht ▸ (h.consume rest).raise _
    | command i rest =>
      rw [step_of_command hreset hd] at hs
      rw [step_of_command hreset' (hrx ▸ hd)] at ht
      exact (h.consume rest).exec hsp hs ht

end

/-- Settles O54: agreement is kept by each way a step can go, and so is its premise. -/
theorem invalidRegistersAreUnobservable : Obligations.InvalidRegistersAreUnobservable := by
  unfold Obligations.InvalidRegistersAreUnobservable
  intro s t s' t' hsp h hs ht
  exact ⟨h.step hsp hs ht, step_processorKeyed hsp hs⟩

end Sys2Proof.Machine
end

section
/-! PROOF. Frames queued on the command port, and commands issued twice: a command is read back from its frame, it
neither reads nor keeps what waits in the ports, and a second issue finds nothing left to change (20_memory R59, R60;
30_encoding R70 to R74). -/

namespace Sys2Proof.Machine

/-! ### Reading a command back from its frame -/

theorem instrOf_opcodeOf (i : Instr) : instrOf (opcodeOf i) i.payload = some i := by
  cases i <;> rfl

theorem decode_encode_append {i : Instr} (h : i.WellFormed) (rest : List Byte) :
    decode (encode i ++ rest) = .command i rest := by
  have hlen : i.payload.length < 2 ^ 16 := of_decide_eq_true h
  simp only [decode, encode, unframe_frame hlen, instrOf_opcodeOf]

/-! ### A command does not see the ports -/

/-- `s` with other bytes waiting in its two ports. -/
def State.withPorts (rx tx : List Byte) (s : State) : State := { s with rx := rx, tx := tx }

section
variable (i : Instr) (s : State) (rx tx : List Byte)

theorem checksOf_withPorts : checksOf i (s.withPorts rx tx) = checksOf i s := by
  cases i <;> rfl

theorem responseOf_withPorts : responseOf i (s.withPorts rx tx) = responseOf i s := by
  cases i <;> rfl

theorem effectOf_withPorts : effectOf i (s.withPorts rx tx) = (effectOf i s).withPorts rx tx := by
  cases i <;> rfl

end

theorem consume_eq_withPorts (rest : List Byte) (s : State) : consume rest s = s.withPorts rest s.tx := rfl

theorem complete_eq_withPorts (rsp : List Byte) (s : State) :
    complete rsp s = s.withPorts s.rx (s.tx ++ responseFrame 0x00 rsp) := rfl

/-! ### A queue of frames -/

/-- What waits on the command port behind a command passes it by. -/
theorem exec_consume {i : Instr} {s t : State} (h : exec i s = .next t) (rest : List Byte) :
    exec i (consume rest s) = .next (consume rest t) := by
  rw [exec_eq_guarded, consume_eq_withPorts, checksOf_withPorts, responseOf_withPorts, effectOf_withPorts]
  rcases exec_next h with ⟨f, -, hf, rfl⟩ | ⟨hpass, rfl⟩
  · exact guarded_fault hf _ _
  · rw [guarded_pass hpass, consume_eq_withPorts, complete_tx, effectOf_tx]
    rfl

theorem exec_resetReq {i : Instr} {s t : State} (h : exec i s = .next t) : t.resetReq = s.resetReq := by
  rcases exec_next h with ⟨f, -, -, rfl⟩ | ⟨-, rfl⟩ <;> simp

theorem execAll_cons {i : Instr} {s t : State} (h : exec i s = .next t) (is : List Instr) :
    execAll (i :: is) s = execAll is t := by
  simp only [execAll, h]

theorem run_succ {s t : State} (h : step s = .next t) (k : Nat) :
    Host.Core.run Sys2Proof.core (k + 1) s = Host.Core.run Sys2Proof.core k t := by
  have hcore : Sys2Proof.core.step s = .next t := h
  simp only [Host.Core.run, hcore]

/-- Settles O9, by induction on the queue: a step takes the first frame off the port and runs its command, which leaves
the frames behind it for the steps to come. -/
theorem queuedFramesRunInOrder : Obligations.QueuedFramesRunInOrder := by
  unfold Obligations.QueuedFramesRunInOrder
  intro is
  induction is with
  | nil =>
    rintro s rest - - rfl
    rfl
  | cons i is ih =>
    intro s rest hwf hreset hrx
    rw [List.forall_mem_cons] at hwf
    obtain ⟨hi, his⟩ := hwf
    obtain ⟨t, ht⟩ : ∃ t, exec i s = .next t := by
      rcases exec_cases i s with ⟨f, -, e⟩ | ⟨-, e⟩ <;> exact ⟨_, e⟩
    have hdecode : decode s.rx = .command i (is.flatMap encode ++ rest) := by
      rw [hrx, List.flatMap_cons, List.append_assoc, decode_encode_append hi]
    have hstep : step s = .next (consume (is.flatMap encode ++ rest) t) := by
      rw [step_of_command hreset hdecode, exec_consume ht]
    have hrun : Host.Core.run Sys2Proof.core is.length (consume (is.flatMap encode ++ rest) t) =
        execAll is (consume rest t) := ih _ rest his ((exec_resetReq ht).trans hreset) rfl
    have hall : execAll (i :: is) (consume rest s) = execAll is (consume rest t) :=
      execAll_cons (exec_consume ht rest) is
    exact (run_succ hstep _).trans (hrun.trans hall.symm)

/-! ### A command issued twice -/

theorem recordFault_recordFault (f : FaultCode) (r : FaultRecord) :
    recordFault f (recordFault f r) = recordFault f r := by
  simp only [recordFault, BitVec.or_assoc, BitVec.or_self]

/-- A fault taken again finds itself recorded and only answers. -/
theorem raise_raise (f : FaultCode) (s : State) : raise f (raise f s) = respond (faultCode f) [] (raise f s) := by
  simp only [raise, respond, recordFault_recordFault]

theorem raise_sameBits (f : FaultCode) (s : State) : (raise f s).SameBits s := ⟨rfl, rfl, rfl, rfl, rfl⟩

theorem effectOf_stream_nil (s : State) : effectOf (.stream []) s = s := rfl

/-- A command reads no register that it changes itself, STREAM with data excepted: after its effect its checks and its
response are the same, and the effect is already there. -/
theorem effectOf_again {i : Instr} (hi : ∀ data, i = .stream data → data = []) (s : State) :
    checksOf i (effectOf i s) = checksOf i s ∧ responseOf i (effectOf i s) = responseOf i s ∧
    effectOf i (effectOf i s) = effectOf i s := by
  cases i with
  | stream data =>
    obtain rfl := hi data rfl
    simp only [effectOf_stream_nil, and_self]
  | _ => exact ⟨rfl, rfl, rfl⟩

/-- Settles O52: a fault is found recorded and a success finds its effect in place, so only the response is added. -/
theorem reissuingACommandIsIdempotent : Obligations.ReissuingACommandIsIdempotent := by
  unfold Obligations.ReissuingACommandIsIdempotent
  intro i s t hi h
  rcases exec_next h with ⟨f, -, hf, rfl⟩ | ⟨hpass, rfl⟩
  · refine ⟨responseFrame (faultCode f) [], rfl, ?_⟩
    rw [exec_eq_guarded, (raise_sameBits f s).checksOf_eq, guarded_fault hf, raise_raise]
    rfl
  · obtain ⟨hchecks, hresponse, heffect⟩ := effectOf_again hi s
    refine ⟨responseFrame 0x00 (responseOf i s), by simp, ?_⟩
    rw [exec_eq_guarded, complete_eq_withPorts, checksOf_withPorts, responseOf_withPorts, effectOf_withPorts, hchecks,
      hresponse, heffect, guarded_pass hpass]
    rfl

end Sys2Proof.Machine
end

section
/-! PROOF. The frame format: what a frame is made of and how it is read back, in both directions, and that every
command answers with exactly one frame (30_encoding R70 to R80; 60_exceptions R218, R226). -/

namespace Sys2Proof.Machine

/-! ### The length field -/

/-- The two bytes of a 16-bit value are read back from it. -/
theorem byteAt_append (lo hi : Byte) :
    byteAt (hi ++ lo : BitVec 16) 0 = lo ∧ byteAt (hi ++ lo : BitVec 16) 1 = hi := by
  constructor <;>
  · apply BitVec.eq_of_getLsbD_eq
    intro i hi'
    simp only [byteAt_getLsbD, BitVec.getLsbD_append]
    grind

/-- A two-byte length is written back as the bytes it was read from. -/
theorem toLE16_ofLE16 (lo hi : Byte) : toLE16 (ofLE16 lo hi) = [lo, hi] := by
  obtain ⟨hlo, hhi⟩ := byteAt_append lo hi
  simp only [toLE16, ofLE16, BitVec.ofNat_toNat, BitVec.setWidth_eq, hlo, hhi]

theorem ofLE16_lt (lo hi : Byte) : ofLE16 lo hi < 2 ^ 16 := BitVec.isLt _

theorem frame_of_length {payload : List Byte} {lo hi : Byte} (h : payload.length = ofLE16 lo hi) (tag : Byte) :
    frame tag payload = tag :: lo :: hi :: payload := by
  rw [frame, h, toLE16_ofLE16]
  rfl

/-! ### The opcode map -/

theorem opcodeOf_payload_of_instrOf {opc : Byte} {pay : List Byte} {i : Instr} (h : instrOf opc pay = some i) :
    opcodeOf i = opc ∧ i.payload = pay := by
  unfold instrOf at h
  split at h <;> cases h <;> exact ⟨BitVec.eq_of_toNat_eq (Eq.symm ‹_›), rfl⟩

theorem opcodeOf_mem (i : Instr) :
    opcodeOf i ∈ ([0x01, 0x02, 0x03, 0x10, 0x11, 0x20, 0x21, 0x22, 0x30, 0x31] : List Byte) := by
  cases i <;> simp [opcodeOf]

/-- Every opcode that is no command's is outside the map, whatever the payload (R78). -/
theorem instrOf_eq_none {opc : Byte}
    (h : opc ∉ ([0x01, 0x02, 0x03, 0x10, 0x11, 0x20, 0x21, 0x22, 0x30, 0x31] : List Byte)) (pay : List Byte) :
    instrOf opc pay = none := by
  by_contra hne
  obtain ⟨i, hi⟩ := Option.ne_none_iff_exists'.1 hne
  obtain ⟨rfl, -⟩ := opcodeOf_payload_of_instrOf hi
  exact h (opcodeOf_mem i)

/-! ### What the decoder answers -/

theorem decode_of_unframe_none {bytes : List Byte} (h : unframe bytes = none) : decode bytes = .hold := by
  simp only [decode, h]

theorem decode_of_instrOf_none {bytes pay rest : List Byte} {opc : Byte} (h : unframe bytes = some (opc, pay, rest))
    (hopc : instrOf opc pay = none) : decode bytes = .illegal opc rest := by
  simp only [decode, h, hopc]

theorem unframe_of_decode {bytes rest : List Byte} {i : Instr} (h : decode bytes = .command i rest) :
    unframe bytes = some (opcodeOf i, i.payload, rest) := by
  rcases decode_cases bytes with ⟨e, -⟩ | ⟨opc, pay, rest', j, hframe, hinstr, e⟩ | ⟨opc, pay, rest', -, -, e⟩ <;>
    rw [e] at h <;> cases h
  obtain ⟨rfl, rfl⟩ := opcodeOf_payload_of_instrOf hinstr
  exact hframe

/-- Fewer payload bytes than the header announces are no frame yet (R73). -/
theorem unframe_underrun {lo hi : Byte} {body : List Byte} (h : body.length < ofLE16 lo hi) (opc : Byte) :
    unframe (opc :: lo :: hi :: body) = none := by
  simp only [unframe, if_pos h]

/-! ### The obligations -/

/-- Settles O7: the frame is split off whole and its opcode is read back. -/
theorem decodeInvertsEncode : Obligations.DecodeInvertsEncode := by
  unfold Obligations.DecodeInvertsEncode
  intro i rest hi
  exact decode_encode_append hi rest

/-- Settles O8: the bytes are a header and a payload of the announced length, and both are what the encoder writes. -/
theorem encodeInvertsDecode : Obligations.EncodeInvertsDecode := by
  unfold Obligations.EncodeInvertsDecode
  intro bytes i rest h
  obtain ⟨lo, hi, rfl, hlen⟩ := unframe_some (unframe_of_decode h)
  refine ⟨decide_eq_true (hlen ▸ ofLE16_lt lo hi), ?_⟩
  rw [encode, frame_of_length hlen]
  rfl

/-- Settles O3: neither form of an incomplete frame is split off, and the completed one is decoded. -/
theorem incompleteFrameHoldsUntilCompleted : Obligations.IncompleteFrameHoldsUntilCompleted := by
  unfold Obligations.IncompleteFrameHoldsUntilCompleted
  intro s hreset hincomplete
  have hnone : unframe s.rx = none := by
    rcases hincomplete with hshort | ⟨opc, lo, hi, body, hrx, hbody⟩
    · exact unframe_short hshort
    · rw [hrx]
      exact unframe_underrun (ofLE16_eq lo hi ▸ hbody) opc
  refine ⟨step_of_hold hreset (decode_of_unframe_none hnone), ?_⟩
  intro i more rest hwf hcomplete
  have hdecode : decode (s.hostSend more).rx = .command i rest := by
    rw [hostSend_rx, hcomplete, decode_encode_append hwf]
  exact step_of_command (s := s.hostSend more) hreset hdecode

/-- Settles O12: a command is its checks and then its end; a failing check is one of its faults, and its end writes
neither the fault records nor the command port. -/
theorem everyCommandEndsInOneResponse : Obligations.EveryCommandEndsInOneResponse := by
  unfold Obligations.EveryCommandEndsInOneResponse
  intro i s
  rcases exec_cases i s with ⟨f, hf, e⟩ | ⟨-, e⟩
  · exact ⟨_, e, .inl ⟨f, firstFault_checksOf_raisable hf, rfl⟩, raise_rx s f, raise_resetReq s f⟩
  · exact ⟨_, e, .inr ⟨by simp, responseOf i s, by simp⟩, by simp, by simp⟩

/-- Settles O2: outside reset a decoded command is the arm of the step that is taken. -/
theorem stepRunsTheDecodedCommand : Obligations.StepRunsTheDecodedCommand := by
  unfold Obligations.StepRunsTheDecodedCommand
  intro s i rest hreset hdecode
  exact step_of_command hreset hdecode

/-- Settles O4: the frame is split off whole, its opcode is outside the map, and the fault taken is code 6. -/
theorem illegalOpcodeRaisesIllegalCommand : Obligations.IllegalOpcodeRaisesIllegalCommand := by
  unfold Obligations.IllegalOpcodeRaisesIllegalCommand
  intro s opc lo hi pay rest hreset hopc hlen hrx
  have hlen' : pay.length = ofLE16 lo hi := hlen.trans (ofLE16_eq lo hi).symm
  have hframe : unframe s.rx = some (opc, pay, rest) := by
    rw [hrx, ← frame_of_length hlen', unframe_frame (hlen' ▸ ofLE16_lt lo hi)]
  exact step_of_illegal hreset (decode_of_instrOf_none hframe (instrOf_eq_none hopc pay))

/-- Settles O5, by running the decoder on the eight frames. -/
theorem sampleFramesDecode : Obligations.SampleFramesDecode := by
  unfold Obligations.SampleFramesDecode
  decide

/-- Settles O6: the two length bytes are those of `toLE16`, which read back as the payload's length. -/
theorem encodeWritesTheCommandFrame : Obligations.EncodeWritesTheCommandFrame := by
  unfold Obligations.EncodeWritesTheCommandFrame
  intro i hwf
  have hlen : i.payload.length < 2 ^ 16 := of_decide_eq_true hwf
  refine ⟨⟨_, _, rfl, ?_⟩, frame_length _ _⟩
  rw [← ofLE16_eq, ofLE16_toLE16 hlen]

end Sys2Proof.Machine
end

section
/-! PROOF. The Block Cipher Engine: the round function nibble by nibble and bit by bit, the words of the key schedule,
the Feistel rounds forward and backward, and the three commands (40_block_cipher_engine). -/

namespace Sys2Proof.Machine

/-! ### Nibbles of a word and the substitution (R13, R101) -/

theorem nib_getLsbD (v : Word) (i : Fin 8) (j : Nat) :
    (nib v i).getLsbD j = (decide (j < 4) && v.getLsbD (4 * i.val + j)) := by
  simp [nib]

/-- A word is determined by its eight nibbles. -/
theorem word_ext_nib {v w : Word} (h : ∀ i, nib v i = nib w i) : v = w := by
  apply BitVec.eq_of_getLsbD_eq
  intro b hb
  have hbit := congrArg (BitVec.getLsbD · (b % 4)) (h ⟨b / 4, by omega⟩)
  simpa only [nib_getLsbD, Nat.mod_lt b (show 0 < 4 by decide), decide_true, Bool.true_and, Nat.div_add_mod] using hbit

@[simp] theorem nib_zero (i : Fin 8) : nib 0 i = 0 := by
  simp [nib]

@[simp] theorem nib_or (v w : Word) (i : Fin 8) : nib (v ||| w) i = nib v i ||| nib w i := by
  simp [nib, BitVec.ushiftRight_or_distrib]

/-- A nibble packed in position `j` is read back there, and every other position holds zero. -/
@[simp] theorem nib_packed (n : Nibble) (j i : Fin 8) :
    nib (n.setWidth 32 <<< (4 * j.val)) i = if j = i then n else 0 := by
  apply BitVec.eq_of_getLsbD_eq
  intro b hb
  have hi := i.isLt
  simp only [nib_getLsbD, BitVec.getLsbD_shiftLeft, BitVec.getLsbD_setWidth, hb, decide_true, Bool.true_and]
  rcases lt_trichotomy j i with hlt | rfl | hlt
  · have hzero : n.getLsbD (4 * i.val + b - 4 * j.val) = false := BitVec.getLsbD_of_ge n _ (by omega)
    simp [hzero, hlt.ne]
  · simp [show 4 * j.val + b < 32 by omega]
    omega
  · simp [hlt.ne', show 4 * i.val + b < 4 * j.val by omega]

/-- Packing nibbles at a list of positions puts each one there and keeps what the other positions hold. -/
theorem nib_foldl_packed (f : Fin 8 → Nibble) (i : Fin 8) (positions : List (Fin 8)) (acc : Word) :
    nib (positions.foldl (fun acc j => acc ||| ((f j).setWidth 32 <<< (4 * j.val))) acc) i =
      nib acc i ||| if i ∈ positions then f i else 0 := by
  induction positions generalizing acc with
  | nil => simp
  | cons j rest ih =>
    rw [List.foldl_cons, ih, nib_or, nib_packed]
    by_cases hji : j = i
    · subst hji
      by_cases hmem : j ∈ rest <;> simp [hmem, BitVec.or_assoc]
    · simp [hji, Ne.symm hji]

/-- Nibble `i` of `T(v)` is row `i` of the table at nibble `i` of `v` (R101). -/
theorem nib_substitute (S : SBox) (v : Word) (i : Fin 8) : nib (substitute S v) i = S i (nib v i) := by
  have hmem : i ∈ nibblePositions := by
    revert i
    decide
  rw [substitute, nib_foldl_packed (fun j => S j (nib v j)), if_pos hmem, nib_zero]
  exact BitVec.zero_or

/-- If one table undoes another row by row, then one substitution undoes the other. -/
theorem substitute_leftInverse {S S' : SBox} (h : ∀ i, Function.LeftInverse (S' i) (S i)) :
    Function.LeftInverse (substitute S') (substitute S) := by
  intro v
  apply word_ext_nib
  intro i
  rw [nib_substitute, nib_substitute, h i]

theorem substitute_bijective {S : SBox} (h : ∀ i, Function.Bijective (S i)) : Function.Bijective (substitute S) := by
  choose S' hleft hright using fun i => Function.bijective_iff_has_inverse.1 (h i)
  exact ⟨(substitute_leftInverse hleft).injective, (substitute_leftInverse hright).surjective⟩

/-- A left rotation by `n` moves bit `(i + 32 - n) mod 32` to position `i` (R13). -/
theorem rotl32_getLsbD (v : Word) {n i : Nat} (hn : n < 32) (hi : i < 32) :
    (rotl32 v n).getLsbD i = v.getLsbD ((i + (32 - n)) % 32) := by
  simp only [rotl32, BitVec.getLsbD_or, BitVec.getLsbD_shiftLeft, BitVec.getLsbD_ushiftRight, hi, decide_true,
    Bool.true_and]
  rcases Nat.lt_or_ge i n with hlow | hhigh
  · simp [hlow, Nat.mod_eq_of_lt (show i + (32 - n) < 32 by omega), Nat.add_comm]
  · have hout : v.getLsbD (32 - n + i) = false := BitVec.getLsbD_of_ge v _ (by omega)
    have hidx : (i + (32 - n)) % 32 = i - n := by omega
    simp [hout, hidx, Nat.not_lt.2 hhigh]

/-! ### The words of the key schedule (R105) -/

/-- A key word is the little-endian value of its four bytes (R50). -/
theorem keyWord_toNat (key : Key) (j : Fin 8) :
    (keyWord key j).toNat =
      (key[4 * j.val]).toNat + 2 ^ 8 * (key[4 * j.val + 1]).toNat + 2 ^ 16 * (key[4 * j.val + 2]).toNat +
        2 ^ 24 * (key[4 * j.val + 3]).toNat :=
  ofLE32_toNat _ _ _ _

theorem expandKey_first (key : Key) (j : Fin 8) : (expandKey key)[j.val] = keyWord key j := by
  rw [expandKey_forward key j.val (by omega)]
  congr 1
  exact Fin.ext (Nat.mod_eq_of_lt j.isLt)

section Palindrome

variable {key : Key} (hpal : ∀ j : Fin 8, keyWord key j = keyWord key j.rev)
include hpal

/-- Under a palindromic key the reversed copy of the key words is a forward copy too. -/
theorem expandKey_of_palindrome (i : Nat) (hi : i < 32) :
    (expandKey key)[i] = keyWord key ⟨i % 8, Nat.mod_lt _ (by decide)⟩ := by
  rcases Nat.lt_or_ge i 24 with hlow | hhigh
  · exact expandKey_forward key i hlow
  · rw [expandKey_reverse key i hhigh hi, hpal]
    congr 1
    apply Fin.ext
    simp only [Fin.val_rev]
    omega

/-- Under a palindromic key the whole schedule reads the same backwards. -/
theorem expandKey_reverse_of_palindrome : (expandKey key).toList.reverse = (expandKey key).toList := by
  apply List.ext_getElem (by simp)
  intro i _ hi
  have hi32 : i < 32 := by simpa using hi
  simp only [List.getElem_reverse, Vector.getElem_toList, Vector.length_toList]
  rw [expandKey_of_palindrome hpal _ (by omega), expandKey_of_palindrome hpal i hi32, hpal]
  congr 1
  apply Fin.ext
  simp only [Fin.val_rev]
  omega

end Palindrome

/-! ### The rounds, forward and backward (R104, R108, R109) -/

/-- The halves with left and right exchanged. -/
def Halves.swap (h : Halves) : Halves := ⟨h.right, h.left⟩

/-- A round undoes itself between two exchanges of the halves, whatever the round key and the table (R104). -/
theorem feistelRound_swap_feistelRound (S : SBox) (h : Halves) (k : Word) :
    feistelRound S (feistelRound S h k).swap k = h.swap := by
  simp [feistelRound, Halves.swap]

/-- Running the same round keys backwards on the exchanged halves undoes the rounds (R110). -/
theorem foldl_reverse_swap_foldl (S : SBox) (ks : List Word) (h : Halves) :
    ks.reverse.foldl (feistelRound S) (ks.foldl (feistelRound S) h).swap = h.swap := by
  induction ks generalizing h with
  | nil => rfl
  | cons k rest ih =>
    rw [List.foldl_cons, List.reverse_cons, List.foldl_append, ih]
    exact feistelRound_swap_feistelRound S h k

/-- The block transform with a list of round keys: EncryptBlock with the schedule, DecryptBlock with its reverse. -/
def transformBlock (S : SBox) (ks : List Word) (b : Block) : Block :=
  writeOut (ks.foldl (feistelRound S) (decodeBlock b))

theorem encryptBlock_eq_transformBlock (S : SBox) (rk : Schedule) (b : Block) :
    encryptBlock S rk b = transformBlock S rk.toList b := rfl

theorem decryptBlock_eq_transformBlock (S : SBox) (rk : Schedule) (b : Block) :
    decryptBlock S rk b = transformBlock S rk.toList.reverse b := rfl

/-- The transform with the reversed round keys undoes the transform (R110). -/
theorem transformBlock_reverse (S : SBox) (ks : List Word) (b : Block) :
    transformBlock S ks.reverse (transformBlock S ks b) = b := by
  have hrounds := foldl_reverse_swap_foldl S ks (decodeBlock b)
  rw [transformBlock, transformBlock, decodeBlock_writeOut]
  exact (congrArg writeOut hrounds).trans (writeOut_decodeBlock b)

/-- The halves after the first `n` rounds, from the halves `h`. -/
def halvesAfter (S : SBox) (ks : List Word) (h : Halves) (n : Nat) : Halves := (ks.take n).foldl (feistelRound S) h

@[simp] theorem halvesAfter_zero (S : SBox) (ks : List Word) (h : Halves) : halvesAfter S ks h 0 = h := rfl

theorem halvesAfter_succ (S : SBox) (ks : List Word) (h : Halves) {n : Nat} (hn : n < ks.length) :
    halvesAfter S ks h (n + 1) = feistelRound S (halvesAfter S ks h n) ks[n] := by
  rw [halvesAfter, List.take_succ_eq_append_getElem hn, List.foldl_append]
  rfl

/-- The transform writes out the halves after its last round. -/
theorem transformBlock_eq_writeOut (S : SBox) {ks : List Word} {n : Nat} (hn : ks.length = n) (b : Block) :
    transformBlock S ks b = writeOut (halvesAfter S ks (decodeBlock b) n) := by
  rw [transformBlock, halvesAfter, List.take_of_length_le hn.le]

/-! ### The commands of the engine (R106 to R109) -/

theorem exec_of_fault {i : Instr} {s : State} {f : FaultCode} (h : firstFault (checksOf i s) = some f) :
    exec i s = .next (raise f s) := by
  rw [exec_eq_guarded, guarded_fault h]

theorem exec_of_pass {i : Instr} {s : State} (h : firstFault (checksOf i s) = none) :
    exec i s = .next (complete (responseOf i s) (effectOf i s)) := by
  rw [exec_eq_guarded, guarded_pass h]

section BlockCommand

variable {i : Instr} {pay : List Byte} {s : State} (hchecks : checksOf i s = checksBlock pay s)
include hchecks

/-- What a block command's checks report: an engine is needed first, then an exact 8-byte window (R107). -/
theorem firstFault_blockCommand :
    firstFault (checksOf i s) =
      if s.engine.keyValid = false then some .notConstructed
      else if pay.length ≠ 8 then some .blockLengthViolation else none := by
  simp [hchecks, checksBlock]

theorem exec_blockCommand_notConstructed (hkey : s.engine.keyValid = false) :
    exec i s = .next (raise .notConstructed s) :=
  exec_of_fault (by rw [firstFault_blockCommand hchecks, if_pos hkey])

theorem exec_blockCommand_lengthViolation (hkey : s.engine.keyValid = true) (hlen : pay.length ≠ 8) :
    exec i s = .next (raise .blockLengthViolation s) :=
  exec_of_fault (by simp [firstFault_blockCommand hchecks, hkey, hlen])

theorem exec_blockCommand_pass (hkey : s.engine.keyValid = true) (hlen : pay.length = 8) :
    exec i s = .next (complete (responseOf i s) (effectOf i s)) :=
  exec_of_pass (by simp [firstFault_blockCommand hchecks, hkey, hlen])

end BlockCommand

/-- A block operand of eight bytes is decoded as two little-endian words (R51). -/
theorem decodeBlock_blockOperand (b0 b1 b2 b3 b4 b5 b6 b7 : Byte) :
    decodeBlock (blockOperand [b0, b1, b2, b3, b4, b5, b6, b7]) = ⟨ofLE32 b0 b1 b2 b3, ofLE32 b4 b5 b6 b7⟩ := by
  simp [blockOperand_eq, decodeBlock]

/-- A written-out block is answered as a frame of eight bytes (R72, R108). -/
theorem responseFrame_writeOut (st : Byte) (h : Halves) :
    responseFrame st (writeOut h).toList = [st, 0x08, 0x00,
      byteAt h.right 0, byteAt h.right 1, byteAt h.right 2, byteAt h.right 3,
      byteAt h.left 0, byteAt h.left 1, byteAt h.left 2, byteAt h.left 3] :=
  frame_of_length (lo := 0x08) (hi := 0x00) (by simp [ofLE16]) st

/-- A command that answers the transform of its block with 32 round keys, as two sequences of halves and the eight
bytes they end in (R108, R51). -/
theorem exec_transformBlock_rounds {i : Instr} {S : SBox} {ks : List Word} {key : Fin 32 → Word}
    {b0 b1 b2 b3 b4 b5 b6 b7 : Byte} {s : State} (hlen : ks.length = 32) (hkey : ∀ n : Fin 32, ks[n.val] = key n)
    (hexec : exec i s =
      .next (complete (transformBlock S ks (blockOperand [b0, b1, b2, b3, b4, b5, b6, b7])).toList s)) :
    ∃ L R : Nat → Word,
      L 0 = ofLE32 b0 b1 b2 b3 ∧ R 0 = ofLE32 b4 b5 b6 b7 ∧
      (∀ n : Fin 32, L (n.val + 1) = R n.val ∧ R (n.val + 1) = L n.val ^^^ roundF S (R n.val) (key n)) ∧
      exec i s = .next { s with
        tx := s.tx ++ [0x00, 0x08, 0x00,
          byteAt (R 32) 0, byteAt (R 32) 1, byteAt (R 32) 2, byteAt (R 32) 3,
          byteAt (L 32) 0, byteAt (L 32) 1, byteAt (L 32) 2, byteAt (L 32) 3] } := by
  have hround : ∀ h (n : Fin 32),
      halvesAfter S ks h (n.val + 1) = feistelRound S (halvesAfter S ks h n.val) (key n) := fun h n =>
    hkey n ▸ halvesAfter_succ S ks h (by omega)
  rw [transformBlock_eq_writeOut S hlen, decodeBlock_blockOperand] at hexec
  refine ⟨fun n => (halvesAfter S ks ⟨ofLE32 b0 b1 b2 b3, ofLE32 b4 b5 b6 b7⟩ n).left,
    fun n => (halvesAfter S ks ⟨ofLE32 b0 b1 b2 b3, ofLE32 b4 b5 b6 b7⟩ n).right, rfl, rfl, fun n => ?_, ?_⟩
  · exact ⟨congrArg Halves.left (hround _ n), congrArg Halves.right (hround _ n)⟩
  · rw [hexec, complete, respond, responseFrame_writeOut]

/-! ### The obligations -/

/-- Settles O16: the first eight words are the key words, and the copies are those of the schedule's shape. -/
theorem keyScheduleLayout : Obligations.KeyScheduleLayout := by
  unfold Obligations.KeyScheduleLayout
  intro key j
  refine ⟨?_, expandKey_shape key j⟩
  rw [expandKey_first, keyWord_toNat]

/-- Settles O17: `T` nibble by nibble, and the rotation bit by bit. -/
theorem roundFunctionAddsSubstitutesRotates : Obligations.RoundFunctionAddsSubstitutesRotates := by
  unfold Obligations.RoundFunctionAddsSubstitutesRotates
  intro S block key v
  exact ⟨nib_substitute S v, BitVec.toNat_add block key, fun i => rotl32_getLsbD _ (by decide) i.isLt⟩

/-- Settles O18: the rows of this core's table are permutations, and inverse rows give the inverse of `T`. -/
theorem substitutionIsABijection : Obligations.SubstitutionIsABijection := by
  unfold Obligations.SubstitutionIsABijection
  exact ⟨fun i => (Config.sboxRows i).bijective, fun _ => substitute_bijective⟩

/-- Settles O20: the faults of a block command, and the rounds with the words of the schedule in order. -/
theorem encblkEncryptsTheBlock : Obligations.EncblkEncryptsTheBlock := by
  unfold Obligations.EncblkEncryptsTheBlock
  intro pay s
  refine ⟨exec_blockCommand_notConstructed rfl, exec_blockCommand_lengthViolation rfl, ?_⟩
  rintro hkey b0 b1 b2 b3 b4 b5 b6 b7 rfl
  exact exec_transformBlock_rounds (ks := s.engine.rk.toList) (by simp) (by simp) (exec_blockCommand_pass rfl hkey rfl)

/-- Settles O21: the faults of a block command, and the rounds with the words of the schedule in reverse order. -/
theorem decblkDecryptsTheBlock : Obligations.DecblkDecryptsTheBlock := by
  unfold Obligations.DecblkDecryptsTheBlock
  intro pay s
  refine ⟨exec_blockCommand_notConstructed rfl, exec_blockCommand_lengthViolation rfl, ?_⟩
  rintro hkey b0 b1 b2 b3 b4 b5 b6 b7 rfl
  exact exec_transformBlock_rounds (ks := s.engine.rk.toList.reverse) (by simp) (by simp)
    (exec_blockCommand_pass rfl hkey rfl)

/-- Settles O22: the transform with the reversed keys undoes the transform, and reversing twice changes nothing. -/
theorem decryptInvertsEncrypt : Obligations.DecryptInvertsEncrypt := by
  unfold Obligations.DecryptInvertsEncrypt
  intro S rk b
  simp only [encryptBlock_eq_transformBlock, decryptBlock_eq_transformBlock]
  refine ⟨transformBlock_reverse S rk.toList b, ?_⟩
  have hundo := transformBlock_reverse S rk.toList.reverse b
  rwa [List.reverse_reverse] at hundo

/-- Settles O23: the swapped write-out takes back the swap of the last round. -/
theorem encryptIsTheConventionalNetwork : Obligations.EncryptIsTheConventionalNetwork := by
  unfold Obligations.EncryptIsTheConventionalNetwork
  intro S rk b h
  have hlen : rk.toList.length = 31 + 1 := by simp
  rw [encryptBlock_eq_transformBlock, transformBlock_eq_writeOut S hlen, halvesAfter_succ S _ _ (by omega),
    decodeBlock_writeOut, feistelRound_left, feistelRound_right, Vector.getElem_toList]
  rfl

/-- Settles O24: the schedule of a palindromic key reads the same backwards, so both transforms use the same keys. -/
theorem palindromicKeyMakesDecryptEncrypt : Obligations.PalindromicKeyMakesDecryptEncrypt := by
  unfold Obligations.PalindromicKeyMakesDecryptEncrypt
  intro S key b h
  have hpal : ∀ j : Fin 8, keyWord key j = keyWord key j.rev := by
    intro j
    rw [← expandKey_first key j, h j, ← expandKey_first key j.rev]
    congr 1
    rw [Fin.val_rev]
    omega
  rw [decryptBlock_eq_transformBlock, encryptBlock_eq_transformBlock, expandKey_reverse_of_palindrome hpal]

/-- Settles O15: the one check of R106, then the new engine with an empty processor group. -/
theorem keyloadConstructsTheEngine : Obligations.KeyloadConstructsTheEngine := by
  unfold Obligations.KeyloadConstructsTheEngine
  intro pay s
  constructor
  · intro hlen
    exact exec_of_fault (by simp [checksOf, checksKeyload, hlen])
  · intro hlen
    rw [exec_of_pass (by simp [checksOf, checksKeyload, hlen]), responseOf, effectOf, keyOperand_eq hlen]
    rfl

/-- Settles O19: masking twice with the same value takes the mask away. -/
theorem feistelRoundIsInvertible : Obligations.FeistelRoundIsInvertible := by
  unfold Obligations.FeistelRoundIsInvertible
  intro S k l r
  refine ⟨rfl, ?_⟩
  rintro l' r' h
  obtain ⟨rfl, rfl⟩ := Halves.mk.inj h
  exact ⟨rfl, by simp⟩

end Sys2Proof.Machine
end

section
/-! PROOF. The counter of the stream processor: its little-endian value, the two ways to add one, and that different
counters are encrypted differently (41_stream_processor R131, R141). -/

namespace Sys2Proof.Machine

/-! ### The counter (R131) -/

/-- The value of a byte string read little-endian, of any length (R52). -/
def littleEndian (bytes : List Byte) : Nat := Nat.ofDigits 256 (bytes.map BitVec.toNat)

@[simp] theorem littleEndian_nil : littleEndian [] = 0 := rfl

@[simp] theorem littleEndian_cons (b : Byte) (bytes : List Byte) :
    littleEndian (b :: bytes) = b.toNat + 256 * littleEndian bytes := rfl

theorem toNat_lt_of_mem_map (bytes : List Byte) : ∀ d ∈ bytes.map BitVec.toNat, d < 256 :=
  List.forall_mem_map.2 fun b _ => b.isLt

theorem littleEndian_lt (bytes : List Byte) : littleEndian bytes < 256 ^ bytes.length := by
  rw [littleEndian, ← List.length_map BitVec.toNat]
  exact Nat.ofDigits_lt_base_pow_length (by decide) (toNat_lt_of_mem_map bytes)

/-- Byte strings of one length with the same value are the same. -/
theorem eq_of_littleEndian_eq {a b : List Byte} (hlen : a.length = b.length) (h : littleEndian a = littleEndian b) :
    a = b :=
  List.map_injective_iff.2 (fun _ _ => BitVec.eq_of_toNat_eq)
    (Nat.ofDigits_inj_of_len_eq (by decide) (by simpa using hlen) (toNat_lt_of_mem_map a) (toNat_lt_of_mem_map b) h)

/-- A byte below a value is its low digit in base 256. -/
theorem toNat_append_byte {w : Nat} (hi : BitVec w) (lo : Byte) :
    (hi ++ lo).toNat = lo.toNat + 256 * hi.toNat := by
  rw [BitVec.toNat_append, ← Nat.shiftLeft_add_eq_or_of_lt lo.isLt, Nat.shiftLeft_eq]
  omega

theorem ofLE64_toNat (c : Block) : (ofLE64 c).toNat = littleEndian c.toList := by
  obtain ⟨⟨bytes⟩, h⟩ := c
  match bytes, h with
  | [b0, b1, b2, b3, b4, b5, b6, b7], _ => simp [ofLE64, toNat_append_byte]

@[simp] theorem rippleInc_length (bytes : List Byte) : (rippleInc bytes).length = bytes.length := by
  induction bytes with
  | nil => rfl
  | cons b rest ih =>
    rw [rippleInc]
    split <;> simp [ih]

/-- The ripple carry adds one to the value, modulo the number of values (R131). -/
theorem littleEndian_rippleInc (bytes : List Byte) :
    littleEndian (rippleInc bytes) = (littleEndian bytes + 1) % 256 ^ bytes.length := by
  induction bytes with
  | nil => rfl
  | cons b rest ih =>
    have hb := b.isLt
    have hrest := littleEndian_lt rest
    have hpow : 256 ^ (b :: rest).length = 256 * 256 ^ rest.length := Nat.pow_succ'
    rw [rippleInc, hpow]
    split
    · next hcarry =>
      have hb255 : b.toNat = 255 := by bv_omega
      have hshift : 255 + 256 * littleEndian rest + 1 = 256 * (littleEndian rest + 1) := by omega
      rw [littleEndian_cons, littleEndian_cons, ih, hb255, hshift, Nat.mul_mod_mul_left]
      exact Nat.zero_add _
    · next hnocarry =>
      have hsucc : (b + 1).toNat = b.toNat + 1 := by bv_omega
      rw [littleEndian_cons, littleEndian_cons, hsucc, Nat.mod_eq_of_lt (by omega)]
      omega

/-! ### No two counters share a block (R141) -/

theorem ofLE64_inc (c : Block) : ofLE64 (inc c) = ofLE64 c + 1 := ofLE64_toLE64 _

theorem inc_injective : Function.Injective inc := by
  intro c d h
  have hvalue : ofLE64 c = ofLE64 d := by
    rw [← BitVec.add_left_inj 1, ← ofLE64_inc, ← ofLE64_inc, h]
  rw [← toLE64_ofLE64 c, hvalue, toLE64_ofLE64]

/-- The transform is undone by the reversed keys, so no two blocks are encrypted alike (R110). -/
theorem encryptBlock_injective (S : SBox) (rk : Schedule) : Function.Injective (encryptBlock S rk) :=
  Function.LeftInverse.injective (g := decryptBlock S rk) (transformBlock_reverse S rk.toList)

/-! ### The obligations -/

/-- Settles O25: both formulations leave the same value in as many bytes, and the value determines the bytes. -/
theorem counterIncrementRipples : Obligations.CounterIncrementRipples := by
  unfold Obligations.CounterIncrementRipples
  intro ctr
  have hvalue : (ofLE64 (inc ctr)).toNat = ((ofLE64 ctr).toNat + 1) % 2 ^ 64 := by
    rw [ofLE64_inc, BitVec.toNat_add]
    rfl
  refine ⟨hvalue, eq_of_littleEndian_eq (by simp) ?_⟩
  rw [← ofLE64_toNat, hvalue, littleEndian_rippleInc, ofLE64_toNat, Vector.length_toList]
  rfl

/-- Settles O31: neither the increment nor the encryption maps two blocks to one. -/
theorem firstKeystreamBlocksDiffer : Obligations.FirstKeystreamBlocksDiffer := by
  unfold Obligations.FirstKeystreamBlocksDiffer
  intro S rk n1 n2 hne
  exact ((encryptBlock_injective S rk).comp inc_injective).ne hne

end Sys2Proof.Machine
end

section
/-! PROOF. SPINIT and STREAM: the byte loop in closed form, a pass cut in chunks, and a message encrypted and decrypted
(41_stream_processor R133 to R140; 30_encoding R83). -/

namespace Sys2Proof.Machine

/-! ### The byte loop (R134, R135, R140) -/

/-- The processor `p`, found at the start of a chunk, once `n` bytes of the chunk are masked: `ceil(n/8)` increments of
the counter, and the block it gave last. -/
def Processor.afterBytes (S : SBox) (rk : Schedule) (n : Nat) (p : Processor) : Processor :=
  { p with
    ctr := inc^[(n + 7) / 8] p.ctr
    ks := if n = 0 then p.ks else encryptBlock S rk (inc^[(n + 7) / 8] p.ctr) }

section
variable (S : SBox) (rk : Schedule) (n : Nat) (p : Processor)

@[simp] theorem afterBytes_ctr : (p.afterBytes S rk n).ctr = inc^[(n + 7) / 8] p.ctr := rfl
@[simp] theorem afterBytes_spValid : (p.afterBytes S rk n).spValid = p.spValid := rfl
@[simp] theorem afterBytes_spClosed : (p.afterBytes S rk n).spClosed = p.spClosed := rfl
@[simp] theorem afterBytes_zero : p.afterBytes S rk 0 = p := rfl

theorem afterBytes_ks {n : Nat} (hn : n ≠ 0) :
    (p.afterBytes S rk n).ks = encryptBlock S rk (inc^[(n + 7) / 8] p.ctr) := if_neg hn

/-- Before byte `n` a new block is generated exactly when `n` is a multiple of 8. -/
theorem afterBytes_succ :
    p.afterBytes S rk (n + 1) =
      if n % 8 = 0 then nextKeystreamBlock S rk (p.afterBytes S rk n) else p.afterBytes S rk n := by
  split
  · have hblocks : (n + 1 + 7) / 8 = (n + 7) / 8 + 1 := by omega
    simp only [Processor.afterBytes, nextKeystreamBlock, hblocks, Function.iterate_succ_apply', Nat.add_one_ne_zero,
      if_false]
  · have hblocks : (n + 1 + 7) / 8 = (n + 7) / 8 := by omega
    have hn : n ≠ 0 := by omega
    simp only [Processor.afterBytes, hblocks, Nat.add_one_ne_zero, hn, if_false]

/-- Byte `n` of the keystream stands in KS when byte `n` is masked. -/
theorem afterBytes_succ_ks_getElem :
    (p.afterBytes S rk (n + 1)).ks[n % 8]'(Nat.mod_lt n (by decide)) = keystreamByte S rk (ofLE64 p.ctr) n := by
  have hblocks : (n + 1 + 7) / 8 = n / 8 + 1 := by omega
  simp only [afterBytes_ks S rk p (Nat.add_one_ne_zero n), hblocks, inc_iterate, keystreamByte]

/-- A further run over `n` bytes from a block boundary is one run. -/
theorem afterBytes_afterBytes {m : Nat} (hm : m % 8 = 0) :
    (p.afterBytes S rk m).afterBytes S rk n = p.afterBytes S rk (m + n) := by
  have hblocks : (m + n + 7) / 8 = (n + 7) / 8 + (m + 7) / 8 := by omega
  obtain rfl | hn := Nat.eq_zero_or_pos n
  · rfl
  · have hmn : m + n ≠ 0 := by omega
    simp only [Processor.afterBytes, hblocks, Function.iterate_add_apply, hn.ne', hmn, if_false]

end

/-- The byte loop from index `i` on, in closed form. -/
theorem streamBytes_afterBytes (S : SBox) (rk : Schedule) (p : Processor) (pay : List Byte) (i : Nat) :
    streamBytes S rk i pay (p.afterBytes S rk i) =
      (p.afterBytes S rk (i + pay.length),
        pay.mapIdx fun j x => x ^^^ keystreamByte S rk (ofLE64 p.ctr) (i + j)) := by
  induction pay generalizing i with
  | nil => rfl
  | cons x xs ih =>
    simp only [streamBytes, ← afterBytes_succ, ih, afterBytes_succ_ks_getElem, List.mapIdx_cons, List.length_cons,
      Nat.add_zero, Nat.add_comm 1, Nat.add_assoc]

/-- The byte loop of a chunk, in closed form (R134, R140). -/
theorem streamBytes_eq_maskedBy (S : SBox) (rk : Schedule) (p : Processor) (pay : List Byte) :
    streamBytes S rk 0 pay p = (p.afterBytes S rk pay.length, maskedBy S rk (ofLE64 p.ctr) pay) := by
  simpa only [afterBytes_zero, Nat.zero_add, maskedBy] using streamBytes_afterBytes S rk p pay 0

theorem closeIfShort_of_aligned {n : Nat} (hn : n % 8 = 0) (p : Processor) : closeIfShort n p = p := by
  simp [closeIfShort, hn]

theorem closeIfShort_add {m : Nat} (hm : m % 8 = 0) (n : Nat) (p : Processor) :
    closeIfShort (m + n) p = closeIfShort n p := by
  have hmod : (m + n) % 8 = n % 8 := by omega
  simp only [closeIfShort, hmod]

@[simp] theorem maskedBy_length (S : SBox) (rk : Schedule) (N : BitVec 64) (x : List Byte) :
    (maskedBy S rk N x).length = x.length := List.length_mapIdx

/-- Masking twice with the same keystream takes the mask away (R138). -/
theorem maskedBy_maskedBy (S : SBox) (rk : Schedule) (N : BitVec 64) (x : List Byte) :
    maskedBy S rk N (maskedBy S rk N x) = x := by
  apply List.ext_getElem (by simp)
  intro j _ _
  simp only [maskedBy, List.getElem_mapIdx, BitVec.xor_assoc, BitVec.xor_self, BitVec.xor_zero]

/-- From a block boundary on, the keystream is that of a pass which starts at the counter reached there. -/
theorem keystreamByte_add (S : SBox) (rk : Schedule) (N : BitVec 64) {m : Nat} (hm : m % 8 = 0) (j : Nat) :
    keystreamByte S rk (N + BitVec.ofNat 64 (m / 8)) j = keystreamByte S rk N (m + j) := by
  have hblock : (m + j) / 8 + 1 = m / 8 + (j / 8 + 1) := by omega
  have hindex : (m + j) % 8 = j % 8 := by omega
  simp only [keystreamByte, hblock, hindex, BitVec.ofNat_add, BitVec.add_assoc]

/-- The closed form of two parts cut at a block boundary (R136). -/
theorem maskedBy_append (S : SBox) (rk : Schedule) (N : BitVec 64) {x : List Byte} (hx : x.length % 8 = 0)
    (y : List Byte) :
    maskedBy S rk N (x ++ y) = maskedBy S rk N x ++ maskedBy S rk (N + BitVec.ofNat 64 (x.length / 8)) y := by
  simp only [maskedBy, List.mapIdx_append, keystreamByte_add S rk N hx, Nat.add_comm]

/-! ### SPINIT and STREAM (R133, R134) -/

theorem firstFault_spinit (nonce : List Byte) (s : State) :
    firstFault (checksOf (.spinit nonce) s) =
      if s.engine.keyValid = false then some .notConstructed
      else if nonce.length ≠ 8 then some .invalidNonceLength else none := by
  simp [checksOf, checksSpinit]

theorem firstFault_stream (data : List Byte) (s : State) :
    firstFault (checksOf (.stream data) s) =
      if s.processor.spValid = false then some .notConstructed
      else if s.processor.spClosed = true then some .instanceReuseViolation
      else if 4096 < data.length then some .chunkTooLong else none := by
  simp [checksOf, checksStream]

theorem exec_spinit_pass {nonce : List Byte} {s : State} (hkey : s.engine.keyValid = true) (hlen : nonce.length = 8) :
    exec (.spinit nonce) s = .next (complete []
      { s with processor := constructProcessor Config.sbox s.engine.rk (bufferOf 8 nonce) }) := by
  rw [exec_of_pass (by simp [firstFault_spinit, hkey, hlen]), effectOf, blockOperand_eq hlen]
  rfl

theorem exec_stream_notConstructed (data : List Byte) {s : State} (hvalid : s.processor.spValid = false) :
    exec (.stream data) s = .next (raise .notConstructed s) :=
  exec_of_fault (by simp [firstFault_stream, hvalid])

theorem exec_stream_closed (data : List Byte) {s : State} (hvalid : s.processor.spValid = true)
    (hclosed : s.processor.spClosed = true) : exec (.stream data) s = .next (raise .instanceReuseViolation s) :=
  exec_of_fault (firstFault_stream_closed data hvalid hclosed)

theorem responseOf_stream_nil (s : State) : responseOf (.stream []) s = [] := rfl

/-- The state has a processor whose pass is open. -/
structure State.PassOpen (s : State) : Prop where
  valid : s.processor.spValid = true
  notClosed : s.processor.spClosed = false

/-- `s` once `n` bytes of its pass have been masked, by chunks that answered `rsps`. -/
def State.afterStream (n : Nat) (rsps : List (List Byte)) (s : State) : State :=
  { s with
    processor := closeIfShort n (s.processor.afterBytes Config.sbox s.engine.rk n)
    tx := s.tx ++ successFrames rsps }

/-- A chunk within the limit on an open pass is masked whole (R134). -/
theorem exec_stream_pass {data : List Byte} {s : State} (hopen : s.PassOpen) (hlen : data.length ≤ 4096) :
    exec (.stream data) s = .next (s.afterStream data.length
      [maskedBy Config.sbox s.engine.rk (ofLE64 s.processor.ctr) data]) := by
  obtain ⟨hvalid, hclosed⟩ := hopen
  rw [exec_of_pass (by simp [firstFault_stream, hvalid, hclosed, hlen]), responseOf, effectOf,
    streamBytes_eq_maskedBy]
  simp [State.afterStream, complete, respond, successFrames]

theorem afterStream_passOpen {s : State} (hopen : s.PassOpen) {n : Nat} (hn : n % 8 = 0) (rsps : List (List Byte)) :
    (s.afterStream n rsps).PassOpen := by
  obtain ⟨hvalid, hclosed⟩ := hopen
  exact ⟨hvalid, by simp [State.afterStream, hn, hclosed]⟩

/-- The counter has advanced by one for each block begun (R131, R136). -/
theorem afterStream_ctr (n : Nat) (rsps : List (List Byte)) (s : State) :
    ofLE64 (s.afterStream n rsps).processor.ctr = ofLE64 s.processor.ctr + BitVec.ofNat 64 ((n + 7) / 8) := by
  simp only [State.afterStream, closeIfShort_ctr, afterBytes_ctr, inc_iterate, ofLE64_toLE64]

/-- Two runs of chunks cut at a block boundary are one (R136). -/
theorem afterStream_afterStream (s : State) {m : Nat} (hm : m % 8 = 0) (n : Nat) (xs ys : List (List Byte)) :
    (s.afterStream m xs).afterStream n ys = s.afterStream (m + n) (xs ++ ys) := by
  simp only [State.afterStream, closeIfShort_of_aligned hm, closeIfShort_add hm, afterBytes_afterBytes _ _ _ _ hm,
    successFrames, List.flatMap_append, List.append_assoc]

/-! ### A pass in chunks (R136, R140) -/

/-- A list of chunks one pass accepts: each within the limit, and each but the last ends at a block boundary (R136). -/
def OnePass : List (List Byte) → Prop
  | [] => True
  | c :: rest => c.length ≤ 4096 ∧ (rest ≠ [] → c.length % 8 = 0) ∧ OnePass rest

theorem onePass_append_singleton {cs : List (List Byte)} {last : List Byte}
    (hcs : ∀ c ∈ cs, c.length % 8 = 0 ∧ c.length ≤ 4096) (hlast : last.length ≤ 4096) : OnePass (cs ++ [last]) := by
  induction cs with
  | nil => exact ⟨hlast, absurd rfl, trivial⟩
  | cons c rest ih =>
    obtain ⟨⟨hmod, hlen⟩, hrest⟩ := List.forall_mem_cons.1 hcs
    exact ⟨hlen, fun _ => hmod, ih hrest⟩

/-- The responses to a list of chunks of a pass that starts with counter value `N`. -/
def maskedChunks (S : SBox) (rk : Schedule) (N : BitVec 64) : List (List Byte) → List (List Byte)
  | [] => []
  | c :: rest => maskedBy S rk N c :: maskedChunks S rk (N + BitVec.ofNat 64 (c.length / 8)) rest

theorem maskedChunks_map_length (S : SBox) (rk : Schedule) (N : BitVec 64) (cs : List (List Byte)) :
    (maskedChunks S rk N cs).map List.length = cs.map List.length := by
  induction cs generalizing N with
  | nil => rfl
  | cons c rest ih => simp only [maskedChunks, List.map_cons, maskedBy_length, ih]

/-- The responses of a pass concatenate to the closed form, wherever the chunk boundaries fall. -/
theorem maskedChunks_flatten (S : SBox) (rk : Schedule) (N : BitVec 64) {cs : List (List Byte)} (h : OnePass cs) :
    (maskedChunks S rk N cs).flatten = maskedBy S rk N cs.flatten := by
  induction cs generalizing N with
  | nil => rfl
  | cons c rest ih =>
    obtain ⟨-, haligned, hrest⟩ := h
    rw [maskedChunks, List.flatten_cons, List.flatten_cons, ih _ hrest]
    obtain rfl | hne := eq_or_ne rest []
    · simp [maskedBy]
    · rw [maskedBy_append S rk N (haligned hne)]

/-- The chunks of a pass all succeed, and only the processor group and the response port change. -/
theorem execAll_stream {cs : List (List Byte)} {s : State} (h : OnePass cs) (hopen : s.PassOpen) :
    execAll (cs.map .stream) s = .next (s.afterStream cs.flatten.length
      (maskedChunks Config.sbox s.engine.rk (ofLE64 s.processor.ctr) cs)) := by
  induction cs generalizing s with
  | nil => simp [execAll, State.afterStream, maskedChunks, successFrames, closeIfShort]
  | cons c rest ih =>
    obtain ⟨hlen, haligned, hrest⟩ := h
    rw [List.map_cons, execAll_cons (exec_stream_pass hopen hlen), List.flatten_cons, List.length_append]
    obtain rfl | hne := eq_or_ne rest []
    · rfl
    · have hmod := haligned hne
      have hblocks : (c.length + 7) / 8 = c.length / 8 := by omega
      rw [ih hrest (afterStream_passOpen hopen hmod _), afterStream_ctr, hblocks, afterStream_afterStream s hmod]
      rfl

/-- A pass from its SPINIT on. -/
theorem execAll_pass {nonce : List Byte} {cs : List (List Byte)} {s : State} (hkey : s.engine.keyValid = true)
    (hnonce : nonce.length = 8) (h : OnePass cs) :
    execAll (.spinit nonce :: cs.map .stream) s = .next (State.afterStream cs.flatten.length
      ([] :: maskedChunks Config.sbox s.engine.rk (ofLE64 (bufferOf 8 nonce)) cs)
      { s with processor := constructProcessor Config.sbox s.engine.rk (bufferOf 8 nonce) }) := by
  rw [execAll_cons (exec_spinit_pass hkey hnonce), execAll_stream h ⟨rfl, rfl⟩]
  simp [State.afterStream, complete, respond, successFrames, constructProcessor]

/-! ### A message cut in chunks (R83, R138) -/

@[simp] theorem chunksOf_nil (fuel : Nat) : chunksOf fuel [] = [] := by
  cases fuel <;> rfl

theorem chunksOf_succ (fuel : Nat) {data : List Byte} (h : data ≠ []) :
    chunksOf (fuel + 1) data = data.take 4096 :: chunksOf fuel (data.drop 4096) := by
  cases data with
  | nil => exact absurd rfl h
  | cons b rest => rfl

/-- Cutting loses no byte, given a chunk for every byte at most. -/
theorem chunksOf_flatten {fuel : Nat} {data : List Byte} (h : data.length ≤ fuel) :
    (chunksOf fuel data).flatten = data := by
  induction fuel generalizing data with
  | zero => exact (List.eq_nil_of_length_eq_zero (Nat.le_zero.1 h)).symm
  | succ fuel ih =>
    obtain rfl | hne := eq_or_ne data []
    · rfl
    · have hdrop : (data.drop 4096).length ≤ fuel := by
        rw [List.length_drop]
        omega
      rw [chunksOf_succ fuel hne, List.flatten_cons, ih hdrop, List.take_append_drop]

/-- A chunk that others follow is a full one of 4096 bytes, so it ends at a block boundary. -/
theorem chunksOf_onePass (fuel : Nat) (data : List Byte) : OnePass (chunksOf fuel data) := by
  induction fuel generalizing data with
  | zero => trivial
  | succ fuel ih =>
    obtain rfl | hne := eq_or_ne data []
    · trivial
    · rw [chunksOf_succ fuel hne]
      refine ⟨List.length_take_le _ _, fun hrest => ?_, ih _⟩
      have hlong : data.drop 4096 ≠ [] := by
        intro hnil
        exact hrest (by rw [hnil, chunksOf_nil])
      rw [List.length_take_of_le (Nat.le_of_not_le (mt List.drop_eq_nil_of_le hlong))]

theorem chunks_onePass (data : List Byte) : OnePass (chunks data) := chunksOf_onePass _ _

theorem chunks_flatten (data : List Byte) : (chunks data).flatten = data := chunksOf_flatten le_rfl

/-- The responses to the chunks of a message under a key, from a nonce on. -/
def messageResponses (key nonce data : List Byte) : List (List Byte) :=
  maskedChunks Config.sbox (expandKey (bufferOf 32 key)) (ofLE64 (bufferOf 8 nonce)) (chunks data)

theorem messageResponses_flatten (key nonce data : List Byte) :
    (messageResponses key nonce data).flatten =
      maskedBy Config.sbox (expandKey (bufferOf 32 key)) (ofLE64 (bufferOf 8 nonce)) data := by
  rw [messageResponses, maskedChunks_flatten _ _ _ (chunks_onePass data), chunks_flatten]

theorem exec_keyload_pass {key : List Byte} (hlen : key.length = 32) (s : State) :
    exec (.keyload key) s = .next (complete [] (constructEngine (bufferOf 32 key) s)) := by
  rw [exec_of_pass (by simp [checksOf, checksKeyload, hlen]), responseOf, effectOf, keyOperand_eq hlen]

/-- What ENCRYPT and DECRYPT answer, in any state: an empty frame for each construction, then the masked chunks. -/
theorem execAll_encryptMessage {key nonce : List Byte} (hkey : key.length = 32) (hnonce : nonce.length = 8)
    (data : List Byte) (s : State) :
    ∃ t, execAll (encryptMessage key nonce data) s = .next t ∧
      t.tx = s.tx ++ successFrames ([] :: [] :: messageResponses key nonce data) := by
  refine ⟨_, (execAll_cons (exec_keyload_pass hkey s) _).trans (execAll_pass rfl hnonce (chunks_onePass data)), ?_⟩
  simp [State.afterStream, successFrames, constructEngine, messageResponses]

/-! ### The obligations -/

/-- Settles O26: the faults in the order of the checks, and the processor SPINIT constructs. -/
theorem spinitConstructsTheProcessor : Obligations.SpinitConstructsTheProcessor := by
  unfold Obligations.SpinitConstructsTheProcessor
  intro pay s
  refine ⟨fun hkey => exec_of_fault ?_, fun hkey hlen => exec_of_fault ?_, fun hkey hlen => ?_⟩
  · simp [firstFault_spinit, hkey]
  · simp [firstFault_spinit, hkey, hlen]
  · exact exec_spinit_pass hkey hlen

/-- Settles O27: the faults in the order of the checks, and the byte loop in closed form. -/
theorem streamMasksTheChunk : Obligations.StreamMasksTheChunk := by
  unfold Obligations.StreamMasksTheChunk
  intro pay s
  refine ⟨exec_stream_notConstructed pay, exec_stream_closed pay, fun hvalid hclosed hlen => exec_of_fault ?_,
    fun hvalid hclosed hlen => ?_⟩
  · simp [firstFault_stream, hvalid, hclosed, hlen]
  · rw [exec_stream_pass ⟨hvalid, hclosed⟩ hlen]
    simp [State.afterStream, closeIfShort, Processor.afterBytes, maskedBy, keystreamByte, inc_iterate, successFrames,
      hclosed]

/-- Settles O28: without a byte the loop stops at once, and the checks are those of every STREAM. -/
theorem zeroLengthChunkGeneratesNothing : Obligations.ZeroLengthChunkGeneratesNothing := by
  unfold Obligations.ZeroLengthChunkGeneratesNothing
  intro s
  refine ⟨fun hvalid hclosed => ?_, exec_stream_notConstructed [], exec_stream_closed []⟩
  rw [exec_of_pass (by simp [firstFault_stream, hvalid, hclosed]), effectOf_stream_nil,
    responseOf_stream_nil, complete, respond, responseFrame_nil]

/-- Settles O29: each chunk but the last leaves the pass open at the block boundary where the next one goes on. -/
theorem passEqualsItsClosedForm : Obligations.PassEqualsItsClosedForm := by
  unfold Obligations.PassEqualsItsClosedForm
  intro s nonce cs last hkey hnonce hcs hlast
  have hpass := onePass_append_singleton hcs hlast
  exact ⟨_, _, execAll_pass hkey hnonce hpass, maskedChunks_map_length _ _ _ _, maskedChunks_flatten _ _ _ hpass,
    afterStream_ctr _ _ _, rfl⟩

/-- Settles O30: both runs mask with one keystream, and masking twice takes the mask away. -/
theorem decryptionRecoversTheMessage : Obligations.DecryptionRecoversTheMessage := by
  unfold Obligations.DecryptionRecoversTheMessage
  intro s key nonce p hkey hnonce
  obtain ⟨t, ht, htx⟩ := execAll_encryptMessage hkey hnonce p s
  obtain ⟨u, hu, hux⟩ := execAll_encryptMessage hkey hnonce (messageResponses key nonce p).flatten t
  refine ⟨t, u, _, _, ht, htx, hu, hux, ?_⟩
  rw [messageResponses_flatten, messageResponses_flatten, maskedBy_maskedBy]

end Sys2Proof.Machine
end

section
/-! PROOF. The Key Derivation Service: what MKLOAD, DERIVE and DKREAD answer, how little of a text the derivation sees,
and that the service and the cipher share no register (42_key_derivation). -/

namespace Sys2Proof.Machine

/-! ### Truncation and diversification (R154, R155) -/

theorem trunc64_of_length_le {text : List Byte} (h : text.length ≤ 64) : trunc64 text = text :=
  List.take_of_length_le h

theorem trunc64_take (text : List Byte) : trunc64 (text.take 64) = trunc64 text := by
  simp [trunc64]

theorem diversify_length (label context : List Byte) :
    (diversify label context).length = label.length + 2 + context.length := by
  simp only [diversify, List.length_append, List.length_cons, List.length_nil]

/-- A separator inside a text cannot be told from the one between the texts (R155). -/
theorem diversify_separator (a b c : List Byte) :
    diversify (a ++ Config.separator ++ b) c = diversify a (b ++ Config.separator ++ c) := by
  simp [diversify]

/-- The derivation sees the two texts through their diversification string only (R156). -/
theorem deriveKey_congr {l c l' c' : List Byte} (h : diversify l c = diversify l' c') (mk : Key) :
    deriveKey mk l c = deriveKey mk l' c' := by
  rw [deriveKey.eq_1, deriveKey.eq_1, h]

/-! ### DERIVE (R152) -/

/-- `s` once DERIVE has succeeded with the truncated texts `label` and `context`. -/
def State.afterDerive (label context : List Byte) (s : State) : State :=
  complete (deriveKey s.kds.mk label context)
    { s with kds := storeRecord (deriveKey s.kds.mk label context) label context s.kds }

theorem exec_derive_notConstructed (pay : List Byte) {s : State} (hmk : s.kds.mkValid = false) :
    exec (.derive pay) s = .next (raise .notConstructed s) :=
  exec_of_fault (by simp [checksOf, checksDerive, hmk])

theorem exec_derive_nil {s : State} (hmk : s.kds.mkValid = true) :
    exec (.derive []) s = .next (raise .frameError s) :=
  exec_of_fault (by simp [checksOf, checksDerive, hmk])

section
variable {llen : Byte} {body : List Byte} {s : State} (hmk : s.kds.mkValid = true)
include hmk

/-- With a master key and a first byte, what is left to check is that the label fits the payload. -/
theorem firstFault_derive_cons :
    firstFault (checksOf (.derive (llen :: body)) s) =
      if body.length < llen.toNat then some .frameError else none := by
  simp [checksOf, checksDerive, hmk, deriveOperands_cons]

theorem exec_derive_overrun (hlen : body.length < llen.toNat) :
    exec (.derive (llen :: body)) s = .next (raise .frameError s) :=
  exec_of_fault (by rw [firstFault_derive_cons hmk, if_pos hlen])

theorem exec_derive_pass (hlen : llen.toNat ≤ body.length) :
    exec (.derive (llen :: body)) s =
      .next (s.afterDerive (trunc64 (body.take llen.toNat)) (trunc64 (body.drop llen.toNat))) := by
  obtain ⟨-, hlabel, hcontext⟩ := deriveOperands_cons llen body
  rw [exec_of_pass (by rw [firstFault_derive_cons hmk, if_neg hlen.not_gt]), responseOf, effectOf, hlabel, hcontext]
  rfl

/-- A label whose length fits one byte is split off its context whole (R82). -/
theorem exec_deriveOf_pass {label : List Byte} (hlabel : label.length ≤ 255) (context : List Byte) :
    exec (deriveOf label context) s = .next (s.afterDerive (trunc64 label) (trunc64 context)) := by
  have hllen : (BitVec.ofNat 8 label.length).toNat = label.length := by
    rw [BitVec.toNat_ofNat, Nat.mod_eq_of_lt (by omega)]
  rw [deriveOf, List.cons_append, exec_derive_pass hmk (by simp [hllen]), hllen, List.take_left, List.drop_left]

end

/-! ### DKREAD (R153) -/

theorem firstFault_dkread (pay : List Byte) (s : State) :
    firstFault (checksOf (.dkread pay) s) =
      if s.kds.dkValid = false then some .notConstructed
      else if pay ≠ [] then some .frameError else none := by
  simp [checksOf, checksDkread]

/-- Both kept texts are returned whole when their lengths are within the storage (R31). -/
theorem recordBytes_length {k : Kds} (hlabel : k.dllen.toNat ≤ 64) (hcontext : k.dclen.toNat ≤ 64) :
    (recordBytes k).length = 34 + k.dllen.toNat + k.dclen.toNat := by
  simp only [recordBytes, List.length_append, List.length_take, Vector.length_toList, List.length_cons, List.length_nil]
  omega

/-! ### The service and the cipher share no register (R150) -/

/-- A change `g` of registers that the command neither reads nor writes, and that taking a fault and answering do not
see, can be made before the command or after it. -/
theorem exec_commutes {g : State → State} {i : Instr} {s t : State} (hchecks : checksOf i (g s) = checksOf i s)
    (hresponse : responseOf i (g s) = responseOf i s) (heffect : effectOf i (g s) = g (effectOf i s))
    (hraise : ∀ f, raise f (g s) = g (raise f s)) (hcomplete : ∀ rsp u, complete rsp (g u) = g (complete rsp u))
    (h : exec i s = .next t) : exec i (g s) = .next (g t) := by
  rcases exec_next h with ⟨f, -, hf, rfl⟩ | ⟨hpass, rfl⟩
  · rw [exec_of_fault (by rw [hchecks, hf]), hraise]
  · rw [exec_of_pass (by rw [hchecks, hpass]), hresponse, heffect, hcomplete]

/-- `s` with other contents of the Key Derivation Service. -/
def State.withKds (k : Kds) (s : State) : State := { s with kds := k }

/-- `s` with another engine and another processor. -/
def State.withCipher (e : Engine) (p : Processor) (s : State) : State := { s with engine := e, processor := p }

theorem exec_withKds {i : Instr} (hop : opcodeOf i ∈ ([0x01, 0x02, 0x03, 0x10, 0x11] : List Byte)) {s t : State}
    (h : exec i s = .next t) (k : Kds) : exec i (s.withKds k) = .next (t.withKds k) := by
  cases i with
  | mkload | derive | dkread | status | zeroize => simp [opcodeOf] at hop
  | _ => exact exec_commutes (g := State.withKds k) rfl rfl rfl (fun _ => rfl) (fun _ _ => rfl) h

theorem exec_withCipher {i : Instr} (hop : opcodeOf i ∈ ([0x20, 0x21, 0x22] : List Byte)) {s t : State}
    (h : exec i s = .next t) (e : Engine) (p : Processor) :
    exec i (s.withCipher e p) = .next (t.withCipher e p) := by
  cases i with
  | mkload | derive | dkread =>
    exact exec_commutes (g := State.withCipher e p) rfl rfl rfl (fun _ => rfl) (fun _ _ => rfl) h
  | _ => simp [opcodeOf] at hop

/-- A command that runs alike over any contents of the KDS group leaves the contents it found. -/
theorem exec_kds {i : Instr} (hop : opcodeOf i ∈ ([0x01, 0x02, 0x03, 0x10, 0x11] : List Byte)) {s t : State}
    (h : exec i s = .next t) : t.kds = s.kds := by
  have hsame : t = t.withKds s.kds := Host.Outcome.next.inj (h.symm.trans (exec_withKds hop h s.kds))
  rw [hsame]
  rfl

/-- A command that runs alike over any engine and any processor leaves those it found. -/
theorem exec_cipher {i : Instr} (hop : opcodeOf i ∈ ([0x20, 0x21, 0x22] : List Byte)) {s t : State}
    (h : exec i s = .next t) : t.engine = s.engine ∧ t.processor = s.processor := by
  have hsame : t = t.withCipher s.engine s.processor :=
    Host.Outcome.next.inj (h.symm.trans (exec_withCipher hop h s.engine s.processor))
  rw [hsame]
  exact ⟨rfl, rfl⟩

/-! ### The obligations -/

/-- Settles O36: the faults in the order of the checks, and the record and the 32-byte answer of the derivation. -/
theorem deriveStoresAndReturnsTheKey : Obligations.DeriveStoresAndReturnsTheKey := by
  unfold Obligations.DeriveStoresAndReturnsTheKey
  intro pay s
  refine ⟨exec_derive_notConstructed pay, ?_, ?_⟩
  · rintro hmk rfl
    exact exec_derive_nil hmk
  · rintro llen body rfl hmk
    refine ⟨exec_derive_overrun hmk, fun hlen => ?_⟩
    have hframe : ∀ l c, responseFrame 0x00 (deriveKey s.kds.mk l c) = [0x00, 0x20, 0x00] ++ deriveKey s.kds.mk l c :=
      fun l c => frame_of_length (lo := 0x20) (hi := 0x00) (deriveKey_length _ l c) 0x00
    rw [exec_derive_pass hmk hlen, State.afterDerive, complete, respond, hframe, ← List.append_assoc]
    rfl

/-- Settles O37: the faults in the order of the checks, and the record with its two texts whole. -/
theorem dkreadReturnsTheRecord : Obligations.DkreadReturnsTheRecord := by
  unfold Obligations.DkreadReturnsTheRecord
  intro pay s
  refine ⟨fun hdk => exec_of_fault ?_, fun hdk hpay => exec_of_fault ?_, ?_⟩
  · simp [firstFault_dkread, hdk]
  · simp [firstFault_dkread, hdk, hpay]
  · rintro hdk rfl hlabel hcontext
    refine ⟨recordBytes s.kds, ?_, recordBytes_length hlabel hcontext, ?_⟩
    · simp [recordBytes]
    · exact exec_of_pass (by simp [firstFault_dkread, hdk])

/-- Settles O38: without a master key neither DERIVE looks at its texts, and with one both cut them alike. -/
theorem deriveSeesOnlyTheFirst64Bytes : Obligations.DeriveSeesOnlyTheFirst64Bytes := by
  unfold Obligations.DeriveSeesOnlyTheFirst64Bytes
  intro s label context hlabel
  cases hmk : s.kds.mkValid with
  | false => exact (exec_derive_notConstructed _ hmk).trans (exec_derive_notConstructed _ hmk).symm
  | true =>
    have hcut : (label.take 64).length ≤ 255 := (List.length_take_le' 64 label).trans hlabel
    rw [exec_deriveOf_pass hmk hlabel, exec_deriveOf_pass hmk hcut, trunc64_take, trunc64_take]

/-- Settles O39: texts that fit are not cut, and both pairs have one diversification string. -/
theorem separatorInsideATextCollides : Obligations.SeparatorInsideATextCollides := by
  unfold Obligations.SeparatorInsideATextCollides
  constructor
  · intro l c
    have hl := trunc64_length_le l
    have hc := trunc64_length_le c
    rw [diversify_length]
    exact ⟨rfl, by omega, by omega⟩
  · intro s a b c hmk hab hbc
    have hleft : (a ++ [0x7c, 0x7c] ++ b).length ≤ 64 := (diversify_length a b).trans_le hab
    have hright : (b ++ [0x7c, 0x7c] ++ c).length ≤ 64 := (diversify_length b c).trans_le hbc
    have hdk := deriveKey_congr (diversify_separator a b c) s.kds.mk
    refine ⟨_, _, exec_deriveOf_pass hmk (by omega) c, exec_deriveOf_pass hmk (by omega) _, ?_⟩
    rw [trunc64_of_length_le hleft, trunc64_of_length_le hright, trunc64_of_length_le (by omega),
      trunc64_of_length_le (by omega)]
    simp only [State.afterDerive, complete_kds, complete_tx, storeRecord, hdk, and_self]

/-- Settles O53: other contents of the registers a command does not share are as they were when it has ended. -/
theorem kdsAndCipherAreIndependent : Obligations.KdsAndCipherAreIndependent := by
  unfold Obligations.KdsAndCipherAreIndependent
  intro i s t h
  refine ⟨fun hop => ⟨exec_kds hop h, exec_withKds hop h⟩, fun hop => ?_⟩
  obtain ⟨hengine, hprocessor⟩ := exec_cipher hop h
  exact ⟨hengine, hprocessor, exec_withCipher hop h⟩

/-- Settles O35: the one check of R151, then the new master key beside the record that was there. -/
theorem mkloadReplacesTheMasterKey : Obligations.MkloadReplacesTheMasterKey := by
  unfold Obligations.MkloadReplacesTheMasterKey
  intro pay s
  constructor
  · intro hlen
    exact exec_of_fault (by simp [checksOf, checksMkload, hlen])
  · intro hlen
    rw [exec_of_pass (by simp [checksOf, checksMkload, hlen]), responseOf, effectOf, keyOperand_eq hlen]
    rfl

/-- Settles O41: the derivation is one block of PBKDF2. -/
theorem derivedKeyIsThirtyTwoBytes : Obligations.DerivedKeyIsThirtyTwoBytes := by
  unfold Obligations.DerivedKeyIsThirtyTwoBytes
  exact deriveKey_length

end Sys2Proof.Machine
end

section
/-! PROOF. The hash primitives: the derivation as an exclusive or of chained HMACs, the message schedule, the padding,
and one published hash value (43_hash_primitives). -/

namespace Sys2Proof.Machine

/-! ### PBKDF2 (R178, R179) -/

/-- The iteration over a chain `u` of HMACs adds the next `n` links of the chain to `t`. -/
theorem pbkdf2Iterate_eq_foldl {password : List Byte} {u : Nat → List Byte}
    (hchain : ∀ j, u (j + 1) = hmacSha256 password (u j)) (n : Nat) (t : List Byte) :
    pbkdf2Iterate password n (u 0) t = (List.range n).foldl (fun acc j => xorBytes acc (u (j + 1))) t := by
  induction n generalizing u t with
  | zero => rfl
  | succ n ih =>
    have htail := ih (u := fun j => u (j + 1)) (fun j => hchain (j + 1)) (xorBytes t (u 1))
    rw [pbkdf2Iterate, ← hchain 0, htail, List.range_succ_eq_map, List.foldl_cons, List.foldl_map]

/-- Block 1 of PBKDF2 is the exclusive or of a chain of `c` HMACs that begins with the salt and the index 1. -/
theorem pbkdf2Block_one_eq_foldl {password salt : List Byte} {u : Nat → List Byte}
    (hfirst : u 0 = hmacSha256 password (salt ++ [0x00, 0x00, 0x00, 0x01]))
    (hchain : ∀ j, u (j + 1) = hmacSha256 password (u j)) (c : Nat) :
    pbkdf2Block password salt c 1 = (List.range (c - 1)).foldl (fun acc j => xorBytes acc (u (j + 1))) (u 0) := by
  have hindex : toBE32 (BitVec.ofNat 32 1) = [0x00, 0x00, 0x00, 0x01] := by decide
  rw [pbkdf2Block, hindex, ← hfirst]
  exact pbkdf2Iterate_eq_foldl hchain (c - 1) (u 0)

/-! ### The message schedule (R175) -/

@[simp] theorem extendSchedule_length (n : Nat) (newest : List Word) :
    (extendSchedule n newest).length = n + newest.length := by
  induction n generalizing newest with
  | zero => simp [extendSchedule]
  | succ n ih => simp [extendSchedule, ih]; omega

/-- The last of `n + 1` new words comes from the list with the first `n` of them. -/
theorem extendSchedule_succ (n : Nat) (newest : List Word) :
    extendSchedule (n + 1) newest = nextScheduleWord (extendSchedule n newest) :: extendSchedule n newest := by
  induction n generalizing newest with
  | zero => rfl
  | succ n ih => rw [extendSchedule, ih, extendSchedule]

/-- More words leave the words before them as they are. -/
theorem extendSchedule_suffix {m n : Nat} (h : m ≤ n) (newest : List Word) :
    extendSchedule m newest <:+ extendSchedule n newest := by
  induction n, h using Nat.le_induction with
  | base => exact List.suffix_rfl
  | succ n _ ih =>
    rw [extendSchedule_succ]
    exact ih.trans (List.suffix_cons _ _)

/-- The first `n + 16` words of the schedule of `block`, newest first. -/
def scheduleWords (block : List Byte) (n : Nat) : List Word :=
  extendSchedule n ((List.range 16).map (blockWord block)).reverse

@[simp] theorem scheduleWords_length (block : List Byte) (n : Nat) : (scheduleWords block n).length = n + 16 := by
  simp [scheduleWords]

theorem scheduleWords_succ (block : List Byte) (n : Nat) :
    scheduleWords block (n + 1) = nextScheduleWord (scheduleWords block n) :: scheduleWords block n :=
  extendSchedule_succ n _

/-- Word `i` of the schedule is already there once `n` words have been added, if `i < n + 16`. -/
theorem messageSchedule_getElem? (block : List Byte) {n i : Nat} (hn : n ≤ 48) (hi : i < n + 16) :
    (messageSchedule block)[i]? = (scheduleWords block n).reverse[i]? := by
  obtain ⟨later, hlater⟩ : (scheduleWords block n).reverse <+: messageSchedule block :=
    (extendSchedule_suffix hn _).reverse
  rw [← hlater, List.getElem?_append_left (by simpa using hi)]

/-- Seen from the newest of the first `n + 16` words, `W[i]` is entry `k` where `i + k + 1 = n + 16`. -/
theorem scheduleWords_getD (block : List Byte) {n i k : Nat} (hn : n ≤ 48) (hik : i + k + 1 = n + 16) :
    (scheduleWords block n).getD k 0 = (messageSchedule block).getD i 0 := by
  rw [List.getD_eq_getElem?_getD, List.getD_eq_getElem?_getD, messageSchedule_getElem? block hn (by omega),
    List.getElem?_reverse (by simp; omega), scheduleWords_length]
  congr 2
  omega

/-- The word after the first `t + 16` is computed from the 2nd, 7th, 15th and 16th word before it. -/
theorem messageSchedule_next (block : List Byte) {t : Nat} (ht : t < 48) :
    (messageSchedule block)[t + 16]? = some (nextScheduleWord (scheduleWords block t)) := by
  rw [messageSchedule_getElem? block (n := t + 1) ht (by omega), scheduleWords_succ]
  simp

/-! ### Padding (R174) -/

theorem padZeros_fills (n : Nat) : (n + 1 + padZeros n + 8) % 64 = 0 := by
  unfold padZeros
  omega

theorem not_fills_of_lt_padZeros {n z : Nat} (hz : z < padZeros n) : (n + 1 + z + 8) % 64 ≠ 0 := by
  unfold padZeros at hz
  omega

/-- A message that its padding fills to one block is compressed once (R176). -/
theorem sha256_of_one_block {m : List Byte} (h : (shaPad m).length = 64) :
    sha256 m = (compress hashInit (shaPad m)).bytes := by
  simp [sha256, h, memRead_all' h]

/-! ### The obligations -/

/-- Settles O40: 32 bytes are one block of PBKDF2, whose iteration runs along the chain `U`. -/
theorem deriveKeyIsTheXorOfTenThousandMacs : Obligations.DeriveKeyIsTheXorOfTenThousandMacs := by
  unfold Obligations.DeriveKeyIsTheXorOfTenThousandMacs
  intro mk label context U hfirst hchain
  rw [deriveKey.eq_1, pbkdf2_one_block, pbkdf2Block_one_eq_foldl (u := fun j => U (j + 1)) hfirst hchain,
    Config.kdfIterations_eq]

/-- Settles O43: the first 16 words are there before any is added, and each later one is `nextScheduleWord` of those
before it. -/
theorem messageScheduleRecurrence : Obligations.MessageScheduleRecurrence := by
  unfold Obligations.MessageScheduleRecurrence
  intro block
  refine ⟨by simp [messageSchedule], fun t ht => ?_, fun t ht => ?_⟩
  · rw [messageSchedule_getElem? block (n := 0) (by omega) ht, scheduleWords, extendSchedule, List.reverse_reverse,
      List.getElem?_map, List.getElem?_range ht, Option.map_some, blockWord]
  · rw [messageSchedule_next block ht, nextScheduleWord,
      scheduleWords_getD block (i := t + 14) ht.le rfl, scheduleWords_getD block (i := t + 9) ht.le rfl,
      scheduleWords_getD block (i := t + 1) ht.le rfl, scheduleWords_getD block (i := t) ht.le rfl]

/-- Settles O42: `padZeros` is the least number that fills the last block. -/
theorem paddingFillsTheLastBlock : Obligations.PaddingFillsTheLastBlock := by
  unfold Obligations.PaddingFillsTheLastBlock
  exact fun m => ⟨padZeros m.length, rfl, padZeros_fills _, fun _ => not_fills_of_lt_padZeros⟩

/-- Settles O44: the padded message is one block, and the kernel runs its compression. -/
theorem hashOfAbcIsThePublishedValue : Obligations.HashOfAbcIsThePublishedValue := by
  unfold Obligations.HashOfAbcIsThePublishedValue
  rw [sha256_of_one_block (by decide)]
  decide +kernel

end Sys2Proof.Machine
end

section
/-! PROOF. The housekeeping commands: their one check, the FLAGS byte and the fault log as numbers, and what STATUS and
ZEROIZE answer (44_housekeeping). -/

namespace Sys2Proof.Machine

/-! ### The one check (R200, R201) -/

theorem firstFault_checksEmpty_nil : firstFault (checksEmpty []) = none := rfl

theorem firstFault_checksEmpty_of_ne_nil {pay : List Byte} (h : pay ≠ []) :
    firstFault (checksEmpty pay) = some .frameError := by
  simp [checksEmpty, h]

/-! ### What STATUS reports (R33, R200) -/

/-- The five flags stand at different bits, so joining them is adding their weights (R33). -/
theorem flagsByte_toNat (s : State) :
    (flagsByte s).toNat = s.engine.keyValid.toNat + 2 * s.processor.spValid.toNat + 4 * s.processor.spClosed.toNat +
      8 * s.kds.mkValid.toNat + 16 * s.kds.dkValid.toNat := by
  have hbits : ∀ key sp closed mk dk : Bool,
      ((BitVec.ofBool key).setWidth 8 ||| (BitVec.ofBool sp).setWidth 8 <<< 1 |||
        (BitVec.ofBool closed).setWidth 8 <<< 2 ||| (BitVec.ofBool mk).setWidth 8 <<< 3 |||
        (BitVec.ofBool dk).setWidth 8 <<< 4 : Byte).toNat =
      key.toNat + 2 * sp.toNat + 4 * closed.toNat + 8 * mk.toNat + 16 * dk.toNat := by decide
  exact hbits _ _ _ _ _

/-- A 16-bit value is the little-endian value of its two bytes (R14). -/
theorem byteAt_zero_add_byteAt_one (v : BitVec 16) : (byteAt v 0).toNat + 256 * (byteAt v 1).toNat = v.toNat := by
  have hread := ofLE16_toLE16 v.isLt
  rwa [BitVec.ofNat_toNat, BitVec.setWidth_eq, ofLE16_eq] at hread

theorem statusBytes_length (s : State) : (statusBytes s).length = 4 := rfl

theorem responseFrame_statusBytes (st : Byte) (s : State) :
    responseFrame st (statusBytes s) = [st, 0x04, 0x00] ++ statusBytes s :=
  frame_of_length (lo := 0x04) (hi := 0x00) (statusBytes_length s) st

/-! ### The obligations -/

/-- Settles O45: the answered bytes are those of `statusBytes`, whose numbers are the flags' weights and the log. -/
theorem statusReportsFlagsAndRecords : Obligations.StatusReportsFlagsAndRecords := by
  unfold Obligations.StatusReportsFlagsAndRecords
  intro pay s
  refine ⟨fun hpay => exec_of_fault (firstFault_checksEmpty_of_ne_nil hpay), ?_⟩
  rintro rfl
  refine ⟨flagsByte s, byteAt s.faults.faultLog 0, byteAt s.faults.faultLog 1, flagsByte_toNat s,
    byteAt_zero_add_byteAt_one _, ?_⟩
  rw [exec_of_pass (i := .status []) firstFault_checksEmpty_nil, responseOf, effectOf, complete, respond,
    responseFrame_statusBytes]
  rfl

/-- Settles O46: the one check of R201, then the erased registers are those of the reset state. -/
theorem zeroizeErasesEverythingButTheRecords : Obligations.ZeroizeErasesEverythingButTheRecords := by
  unfold Obligations.ZeroizeErasesEverythingButTheRecords
  intro pay s
  refine ⟨fun hpay => exec_of_fault (firstFault_checksEmpty_of_ne_nil hpay), ?_⟩
  rintro rfl
  rw [exec_of_pass (i := .zeroize []) firstFault_checksEmpty_nil, responseOf, effectOf, complete, respond,
    responseFrame_nil]
  rfl

end Sys2Proof.Machine
end

section
/-! PROOF. Exceptions: what taking a fault writes, the codes, and that every step answers and either holds or takes a
whole header off the command port (60_exceptions). -/

namespace Sys2Proof.Machine

/-! ### How much of the command port a frame takes (R71) -/

/-- Splitting a frame off takes at least its header, whatever length the header announces. -/
theorem unframe_rest_length {bytes pay rest : List Byte} {opc : Byte} (h : unframe bytes = some (opc, pay, rest)) :
    rest.length + 3 ≤ bytes.length := by
  obtain ⟨lo, hi, rfl, -⟩ := unframe_some h
  simp

/-! ### The obligations -/

/-- Settles O13, by what the decoder answers: with no whole frame the step holds; otherwise the frame has left the port,
and neither a command nor the illegal opcode puts bytes back on it. -/
theorem everyStepAnswersANextState : Obligations.EveryStepAnswersANextState := by
  unfold Obligations.EveryStepAnswersANextState
  intro s
  cases hreset : s.resetReq with
  | true => exact ⟨State.reset, step_of_reset hreset, nofun⟩
  | false =>
    rcases decode_cases s.rx with ⟨hd, -⟩ | ⟨opc, pay, rest, i, hframe, -, hd⟩ | ⟨opc, pay, rest, hframe, -, hd⟩
    · exact ⟨s, step_of_hold hreset hd, fun _ => .inl ⟨hd, rfl⟩⟩
    · obtain ⟨t, ht, -, hrx, -⟩ := everyCommandEndsInOneResponse i (consume rest s)
      rw [consume_rx] at hrx
      exact ⟨t, (step_of_command hreset hd).trans ht, fun _ => .inr (hrx ▸ unframe_rest_length hframe)⟩
    · exact ⟨_, step_of_illegal hreset hd, fun _ => .inr (unframe_rest_length hframe)⟩

/-- Settles O10: the records are those of `recordFault`, and an empty response is the code and a zero length. -/
theorem faultDeliveryWritesOnlyTheRecords : Obligations.FaultDeliveryWritesOnlyTheRecords := by
  unfold Obligations.FaultDeliveryWritesOnlyTheRecords
  intro f s
  rw [raise, respond, responseFrame_nil, recordFault, faultBit]

/-- Settles O11, one row of R210 after the other. -/
theorem faultCodesAreTheTable : Obligations.FaultCodesAreTheTable := by
  unfold Obligations.FaultCodesAreTheTable
  exact ⟨rfl, rfl, rfl, rfl, rfl, rfl, rfl, rfl, rfl, rfl⟩

end Sys2Proof.Machine
end

section
/-! PROOF. Hazards of a pass: input bits flipped on the way, and a KEYLOAD in the middle (70_reset_and_hazards). -/

namespace Sys2Proof.Machine

/-! ### Flipped input bits (R252) -/

/-- Masking commutes with flipping bits: both are exclusive or, byte by byte. -/
theorem maskedBy_xorBytes (S : SBox) (rk : Schedule) (N : BitVec 64) (x d : List Byte) :
    maskedBy S rk N (xorBytes x d) = xorBytes (maskedBy S rk N x) d := by
  apply List.ext_getElem (by simp)
  intro j _ _
  simp only [maskedBy, xorBytes, List.getElem_mapIdx, List.getElem_zipWith]
  ac_rfl

/-- The answers of a pass go to the response port and nowhere else. -/
theorem afterStream_singleton (n : Nat) (rsp : List Byte) (s : State) :
    s.afterStream n [rsp] = { s.afterStream n [] with tx := s.tx ++ responseFrame 0x00 rsp } := by
  simp only [State.afterStream, successFrames, List.flatMap_singleton]

/-! ### The obligations -/

/-- Settles O32: the registers after a chunk depend on its length alone, and masking commutes with the flips. -/
theorem bitFlipsPassThroughUnnoticed : Obligations.BitFlipsPassThroughUnnoticed := by
  unfold Obligations.BitFlipsPassThroughUnnoticed
  intro s x d hvalid hclosed hx hd
  have hopen : s.PassOpen := ⟨hvalid, hclosed⟩
  have hflipped : (xorBytes x d).length = x.length := by simp [hd]
  refine ⟨s.afterStream x.length [], maskedBy Config.sbox s.engine.rk (ofLE64 s.processor.ctr) x,
    maskedBy_length _ _ _ _, ?_, ?_, rfl⟩
  · rw [exec_stream_pass hopen hx, afterStream_singleton]
  · rw [exec_stream_pass hopen (hflipped.trans_le hx), hflipped, maskedBy_xorBytes, afterStream_singleton]

/-- Settles O34: KEYLOAD empties the processor group with the new engine, or faults in the state it found. -/
theorem keyloadEndsThePass : Obligations.KeyloadEndsThePass := by
  unfold Obligations.KeyloadEndsThePass
  intro s key data
  obtain ⟨hwrongLength, -⟩ := keyloadConstructsTheEngine key s
  constructor
  · intro hlen
    exact ⟨_, exec_keyload_pass hlen s, rfl, exec_stream_notConstructed data rfl⟩
  · intro hlen
    exact ⟨_, hwrongLength hlen, rfl, rfl⟩

end Sys2Proof.Machine
end
